-- ==== Sys2Proof/Word.lean ====
section
/-! DEFINITION. The words of the engine: 32-bit hash and schedule words and 8-bit message bytes (00_scope.md R7, R9).
All arithmetic on them is `BitVec` arithmetic, which wraps modulo the width (40_compression.md R107). -/

namespace Sys2Proof

/-- A 32-bit unsigned word: CMD, DATA, RDATA, STATUS, hash words and schedule words (00_scope.md R7, R9). -/
abbrev Word := BitVec 32

/-- A message byte (00_scope.md R9). -/
abbrev Byte := BitVec 8

end Sys2Proof
end

