-- ==== Sys2Proof/Syntax.lean ====
section
/-! DEFINITION. The commands of the host interface as data: one constructor for each row of the opcode table
(30_encoding.md R82, R83). A field keeps the bits the command word gives it. -/

namespace Sys2Proof

/-- A decoded command (30_encoding.md R82). DATA belongs to UPDATE alone (R89). -/
inductive Instr where
  /-- NOP (43_commands.md R161). -/
  | nop
  /-- INIT V, with V as CMD[1:0] gives it (43_commands.md R162, 30_encoding.md R84). -/
  | init (v : BitVec 2)
  /-- UPDATE N, DATA, with N - 1 as CMD[1:0] gives it (43_commands.md R163, 30_encoding.md R85). -/
  | update (nMinus1 : BitVec 2) (data : Word)
  /-- FINISH (43_commands.md R170). -/
  | finish
  /-- READ I, with I as CMD[2:0] gives it (43_commands.md R175, 30_encoding.md R86). -/
  | read (i : BitVec 3)
  deriving DecidableEq, Repr

/-- Why a command word is ILLEGAL (60_exceptions.md R201, cause of code 1). All three have the same effect. -/
inductive Illegal where
  /-- OP is 0x5 to 0xF (30_encoding.md R88). -/
  | reservedOpcode
  /-- A reserved bit of the command word is set (30_encoding.md R87). -/
  | reservedBits
  /-- INIT with V = 2 or 3 (30_encoding.md R84). -/
  | reservedVariant
  deriving DecidableEq, Repr

/-- A row of the opcode map: a word is in the row when `word ∧ mask = pattern` (30_encoding.md R82). -/
structure OpcodeRow where
  mnemonic : String
  pattern : Word
  mask : Word
  deriving DecidableEq, Repr

end Sys2Proof
end

