-- ==== Sys2Proof/WellFormed.lean ====
section
/-! DEFINITION. Which commands an encoding of the spec stands for. The types of the fields bound N and I; the one value a
field can hold and a command cannot is a reserved V. -/

namespace Sys2Proof

/-- A command that some CMD word encodes: V of INIT is 0 or 1 (30_encoding.md R84); every N - 1 of two bits and every I of
three is encodable (R85, R86). -/
def Instr.wellFormed : Instr → Bool
  | .nop => true
  | .init v => v = 0#2 || v = 1#2
  | .update _ _ => true
  | .finish => true
  | .read _ => true

end Sys2Proof
end

