-- ==== Sys2Proof/Decode.lean ====
section
/-! DEFINITION. The decoder of command words, total and rejecting by name (30_encoding.md R81 to R91), and the encoder
written from the same tables. -/

namespace Sys2Proof

/-- OP = CMD[31:28] (30_encoding.md R81). -/
def opField (cmd : Word) : BitVec 4 := cmd.extractLsb' 28 4

/-- CMD[1:0]: V of INIT, N - 1 of UPDATE (30_encoding.md R80, R81). -/
def argField (cmd : Word) : BitVec 2 := cmd.extractLsb' 0 2

/-- I = CMD[2:0] of READ (30_encoding.md R81, R86). -/
def indexField (cmd : Word) : BitVec 3 := cmd.extractLsb' 0 3

/-- The decoder of 30_encoding.md R91. It reads CMD alone; DATA is only carried along for UPDATE (R89, R90). -/
def decode (cmd data : Word) : Except Illegal Instr :=
  match (opField cmd).toNat with
  | 0 => if cmd.extractLsb' 0 28 = 0 then .ok .nop else .error .reservedBits
  | 1 =>
    if cmd.extractLsb' 2 26 = 0 then
      if cmd.getLsbD 1 = false then .ok (.init (argField cmd)) else .error .reservedVariant
    else .error .reservedBits
  | 2 => if cmd.extractLsb' 2 26 = 0 then .ok (.update (argField cmd) data) else .error .reservedBits
  | 3 => if cmd.extractLsb' 0 28 = 0 then .ok .finish else .error .reservedBits
  | 4 => if cmd.extractLsb' 3 25 = 0 then .ok (.read (indexField cmd)) else .error .reservedBits
  | _ => .error .reservedOpcode

/-- The CMD word of a command: the exact values of 30_encoding.md R82. -/
def encodeCmd : Instr → Word
  | .nop => 0x00000000#32
  | .init v => 0x10000000#32 ||| v.zeroExtend 32
  | .update nMinus1 _ => 0x20000000#32 ||| nMinus1.zeroExtend 32
  | .finish => 0x30000000#32
  | .read i => 0x40000000#32 ||| i.zeroExtend 32

/-- The DATA word of a command: UPDATE's operand, and 0 where DATA is ignored (30_encoding.md R83, R89, R92). -/
def encodeData : Instr → Word
  | .nop => 0
  | .init _ => 0
  | .update _ data => data
  | .finish => 0
  | .read _ => 0

/-- The two words of a command's transaction, CMD and DATA (30_encoding.md R80). -/
def encode (i : Instr) : Word × Word :=
  (encodeCmd i, encodeData i)

/-- The opcode map with each row's match and mask (30_encoding.md R82). -/
def opcodeTable : List OpcodeRow :=
  [ { mnemonic := "NOP", pattern := 0x00000000#32, mask := 0xFFFFFFFF#32 },
    { mnemonic := "INIT", pattern := 0x10000000#32, mask := 0xFFFFFFFE#32 },
    { mnemonic := "UPDATE", pattern := 0x20000000#32, mask := 0xFFFFFFFC#32 },
    { mnemonic := "FINISH", pattern := 0x30000000#32, mask := 0xFFFFFFFF#32 },
    { mnemonic := "READ", pattern := 0x40000000#32, mask := 0xFFFFFFF8#32 } ]

/-- A row selects a word (30_encoding.md R82, R87). -/
def OpcodeRow.selects (r : OpcodeRow) (cmd : Word) : Bool :=
  cmd &&& r.mask = r.pattern

/-- The mnemonic of a command (30_encoding.md R82). -/
def mnemonicOf : Instr → String
  | .nop => "NOP"
  | .init _ => "INIT"
  | .update _ _ => "UPDATE"
  | .finish => "FINISH"
  | .read _ => "READ"

/-- CMD and DATA of a transaction whose bits are numbered as one number: CMD is its first word, bits 31..0, and DATA the
second, bits 63..32; the bits from `nbits` up are 0 (opcode_table.json). -/
def tableWords (nbits w : Nat) : Word × Word :=
  (BitVec.ofNat 32 (w % 2 ^ nbits), BitVec.ofNat 32 (w % 2 ^ nbits / 2 ^ 32))

/-- The command the decoder reads from a transaction numbered as `tableWords` numbers it. -/
def decodeTableWord (nbits w : Nat) : Option Instr :=
  match decode (tableWords nbits w).1 (tableWords nbits w).2 with
  | .ok i => some i
  | .error _ => none

end Sys2Proof
end

