-- ==== Sys2Proof/Config.lean ====
section
/-! DEFINITION. What the spec leaves to the implementation or the platform (00_scope.md R8). Each is an opaque constant,
so nothing can be proved about its value: a statement holds whatever it is. -/

namespace Sys2Proof

/-- Which latency parameter a command takes: LAT_NOP, LAT_INIT, LAT_UPDATE, LAT_FINISH, LAT_READ (00_scope.md R8), and one
more class for a word that decodes to no command, whose latency the spec does not name (log 8). -/
inductive LatencyClass where
  | nop
  | init
  | update
  | finish
  | read
  | illegal
  deriving DecidableEq, Repr

/-- The cycles a command takes beyond the first. DESIGN CHOICE (log 8): a free value of the class and of a counter that
every acceptance advances, because 70_reset_and_hazards.md R246 allows latencies that depend on the data. DESIGN CHOICE, unsafe
(logs 8, 16): neither the data nor the engine is an argument, so two acceptances of one class at one count, in two runs or on two
engines, take the same number of cycles, which R246 and 60_exceptions.md R213 leave open. -/
opaque Config.extraCycles : LatencyClass → Nat → Nat

/-- LAT_<op>: finite and at least 1 (00_scope.md R8, 70_reset_and_hazards.md R246). -/
def Config.latency (c : LatencyClass) (draw : Nat) : Nat :=
  Config.extraCycles c draw + 1

/-- SHA_BASE, the base address of the bus wrapper, of any value (00_scope.md R8, 20_memory.md R63; 32-bit addresses: log 12).
DESIGN CHOICE (log 16): the spec has one SHA_BASE and does not say where the wrappers of several engines stand, so the engine's
number is an argument and nothing is said of whether two bases differ. -/
opaque Config.shaBase : Nat → Word

/-- The engine instances of the platform beyond the first (log 16). -/
opaque Config.moreEngines : Nat

/-- N_ENGINES, the number of engine instances on the platform, at least one (00_scope.md R8, 20_memory.md R69; log 16). -/
def Config.nEngines : Nat := Config.moreEngines + 1

end Sys2Proof
end

