-- ==== Sys2Proof/Machine/State.lean ====
section
/-! DEFINITION. The state of one engine with its command port and its bus wrapper (10_state.md R20; 20_memory.md R50, R63),
the events of its host, the reasons a step can stop, and the state after reset (70_reset_and_hazards.md R230). -/

namespace Sys2Proof.Machine

/-- VAR (10_state.md R22). -/
inductive Variant where
  | sha256
  | sha224
  deriving DecidableEq, Repr

/-- PHASE; the encoding 11 is never held, so it has no name (10_state.md R23). -/
inductive Phase where
  | idle
  | absorb
  | done
  deriving DecidableEq, Repr

/-- The named values of ECODE (60_exceptions.md R201). The codes 5 to 15 are never set, so they have no name. -/
inductive ErrorCode where
  | none
  | illegal
  | state
  | range
  | len
  deriving DecidableEq, Repr

/-- H[0..7] (10_state.md R21). -/
abbrev HashState := Vector Word 8

/-- The working variables a..h (10_state.md R29). -/
structure Working where
  a : Word
  b : Word
  c : Word
  d : Word
  e : Word
  f : Word
  g : Word
  h : Word
  deriving DecidableEq, Repr

/-- The compression datapath: a..h, the schedule ring Wr[0..15] and the round counter t of 0..64 (10_state.md R20, R29,
R30). -/
structure Datapath where
  work : Working
  ring : Vector Word 16
  t : Fin 65
  deriving DecidableEq, Repr

/-- A command as the host presents it: the words CMD and DATA (00_scope.md R14, 30_encoding.md R80). -/
structure Transaction where
  cmd : Word
  data : Word
  deriving DecidableEq, Repr

/-- A command that is accepted and not yet answered (20_memory.md R51, R52): the words sampled at acceptance and how many
edges pass before the one that answers. -/
structure Flight where
  cmd : Word
  data : Word
  wait : Nat
  deriving DecidableEq, Repr

/-- The command port (20_memory.md R50 to R52): cmd_ready, rsp_valid, the command in flight, and the command that is presented
and not yet accepted. `offer` is one that the host presents on the pins and must hold (70_reset_and_hazards.md R235), `write` one
that the wrapper presents for a CMD write, which stays on the bus until it is accepted (R65; log 14). -/
structure Port where
  ready : Bool
  rspValid : Bool
  flight : Option Flight
  offer : Option Transaction
  write : Option Transaction
  deriving DecidableEq, Repr

/-- The input pins sampled at a rising edge of clk (20_memory.md R50). -/
structure Pins where
  rst : Bool
  cmdValid : Bool
  cmd : Word
  data : Word
  deriving DecidableEq, Repr

/-- The width of a bus access (20_memory.md R64). -/
inductive BusSize where
  | byte
  | half
  | word
  deriving DecidableEq, Repr

/-- What the host does next (log 1). -/
inductive HostEvent where
  /-- A whole transaction on the command port: the host presents it, holds it until it is accepted and waits for the
  response (20_memory.md R51 to R53). -/
  | command (cmd data : Word)
  /-- One rising edge of clk with these pins (20_memory.md R50; 70_reset_and_hazards.md R230). -/
  | edge (pins : Pins)
  /-- A write of the bus wrapper (20_memory.md R63). -/
  | busWrite (addr : Word) (size : BusSize) (value : Word)
  /-- A read of the bus wrapper (20_memory.md R63). -/
  | busRead (addr : Word) (size : BusSize)
  deriving DecidableEq, Repr

/-- Everything the spec gives the engine (10_state.md R20), its port and its wrapper, and three fields of the model's own:
`busRead`, `inputs` and `draws` (logs 1, 8, 13). STATUS is derived (10_state.md R33), K and IV are constants (R36, R37). -/
structure State where
  /-- H[0..7] (10_state.md R21). -/
  h : HashState
  /-- VAR (R22). -/
  var : Variant
  /-- PHASE (R23). -/
  phase : Phase
  /-- BUF[0..63] (R24). -/
  buf : Vector Byte 64
  /-- BUFLEN, a value of 0..64 (R20, R25). -/
  bufLen : Fin 65
  /-- BYTECNT (R26). -/
  byteCnt : BitVec 64
  /-- ERR (R27). -/
  err : Bool
  /-- ECODE (R28). -/
  ecode : ErrorCode
  /-- RDATA (R35). -/
  rdata : Word
  /-- a..h, Wr, t (R29, R30; log 6). -/
  dp : Datapath
  /-- The command port (20_memory.md R50). -/
  port : Port
  /-- The DATA register of the bus wrapper, which is always there (20_memory.md R63; log 20). -/
  busData : Word
  /-- The word the wrapper last drove for a bus read (the model's own, log 13). -/
  busRead : Word
  /-- The host's events to come, oldest first (the model's own, log 1). -/
  inputs : List HostEvent
  /-- How many latencies have been drawn (the model's own, log 8; the engines of a platform each count their own: log 16). -/
  draws : Nat
  deriving DecidableEq, Repr

/-- The reasons the machine stops. No run from reset reaches one. -/
inductive Fault where
  /-- LEN: compress was given a block that has not 64 bytes (40_compression.md R114, 60_exceptions.md R208). Raised by
  `compress`. Safe: a never-final fault, as the spec asks. -/
  | len
  /-- A byte was absorbed with BUFLEN = 64, where there is no BUF[64] (10_state.md R24, R25). Raised by `absorbByte`. Safe:
  no state of a run has BUFLEN = 64 between commands (log 4). -/
  | bufOverrun
  deriving DecidableEq, Repr

/-- The cases to which the spec gives no meaning. All but the first are breaches by the host or the bus, never commands. -/
inductive Refusal where
  /-- An instruction without a meaning. No arm answers it: every command has its meaning. Safe. -/
  | notModelled (mnemonic : String)
  /-- The host changed or withdrew a command before it was accepted (70_reset_and_hazards.md R235), at a reset edge too (log 10).
  Raised by `clockEdge` and `transact`. Safe: the spec asks a model to refuse it. -/
  | handshakeHold
  /-- Two masters drive one command port (70_reset_and_hazards.md R236, 20_memory.md R69). Raised by `clockEdge`,
  `wrapperWrite` and `platformIssue`. Safe: the spec asks a model to refuse it. -/
  | twoMasters
  /-- A wrapper access that is not an aligned 32-bit access to one of its four offsets (20_memory.md R64; alignment of the
  address: log 12). Raised by `wrapperOffset`. Safe: the spec asks a model to refuse it. -/
  | busUndefined
  /-- A bus access outside the wrapper's 16 bytes, which is another device's (20_memory.md R63; log 12). Raised by
  `wrapperOffset`. Safe: the machine stops. -/
  | busOutsideWindow
  /-- An event for an engine that the platform does not have (20_memory.md R69; log 16). Raised by `platformIssue`. Safe: the
  machine stops. -/
  | noSuchEngine
  deriving DecidableEq, Repr

/-- The registers after reset (70_reset_and_hazards.md R230, R232). The spec gives no value for H, BUF, BYTECNT, a..h, Wr
and t (10_state.md R40): DESIGN CHOICE zero, unsafe (log 2). No input stands waiting (log 1). -/
def State.reset : State where
  h := Vector.replicate 8 0#32
  var := .sha256
  phase := .idle
  buf := Vector.replicate 64 0#8
  bufLen := 0
  byteCnt := 0#64
  err := false
  ecode := .none
  rdata := 0#32
  dp :=
    { work := { a := 0#32, b := 0#32, c := 0#32, d := 0#32, e := 0#32, f := 0#32, g := 0#32, h := 0#32 }
      ring := Vector.replicate 16 0#32
      t := 0 }
  port := { ready := false, rspValid := false, flight := none, offer := none, write := none }
  busData := 0#32
  busRead := 0#32
  inputs := []
  draws := 0

end Sys2Proof.Machine
end

