-- ==== Sys2Proof/Machine/Flags.lean ====
section
/-! DEFINITION. The STATUS word (10_state.md R33). The engine has no condition codes: every status bit is a field of it
(10_state.md R38). -/

namespace Sys2Proof.Machine

/-- STATUS.PHASE (10_state.md R23, R33). -/
def phaseCode : Phase → BitVec 2
  | .idle => 0b00#2
  | .absorb => 0b01#2
  | .done => 0b10#2

/-- STATUS.VAR (10_state.md R22, R33). -/
def variantCode : Variant → BitVec 1
  | .sha256 => 0#1
  | .sha224 => 1#1

/-- STATUS.ECODE (60_exceptions.md R201). -/
def errorNumber : ErrorCode → BitVec 4
  | .none => 0#4
  | .illegal => 1#4
  | .state => 2#4
  | .range => 3#4
  | .len => 4#4

/-- STATUS.BUSY: a command is executing, that is, accepted and not yet answered (10_state.md R33, 20_memory.md R52). -/
def busy (s : State) : Bool := s.port.flight.isSome

/-- STATUS, composed as 10_state.md R33 says, with BUSY in bit 14. -/
def statusWord (s : State) : Word :=
  (phaseCode s.phase).zeroExtend 32
    ||| (variantCode s.var).zeroExtend 32 <<< 2
    ||| (BitVec.ofBool s.err).zeroExtend 32 <<< 3
    ||| (errorNumber s.ecode).zeroExtend 32 <<< 4
    ||| BitVec.ofNat 32 s.bufLen.val <<< 8
    ||| (BitVec.ofBool (busy s)).zeroExtend 32 <<< 14

end Sys2Proof.Machine
end

