-- ==== Sys2Proof/Machine/Operands.lean ====
section
/-! DEFINITION. The operand forms of the commands (V, N, DATA lanes, I: 30_encoding.md R81 to R89; 20_memory.md R54) and the
assembly of bytes into words (00_scope.md R11). -/

namespace Sys2Proof.Machine

/-- be32: four bytes, the first the most significant (00_scope.md R11). -/
def be32 (b0 b1 b2 b3 : Byte) : Word :=
  b0.zeroExtend 32 <<< 24 ||| b1.zeroExtend 32 <<< 16 ||| b2.zeroExtend 32 <<< 8 ||| b3.zeroExtend 32

/-- bytes32: the bytes of a word, the most significant first (00_scope.md R11). -/
def bytes32 (x : Word) : List Byte :=
  [x.extractLsb' 24 8, x.extractLsb' 16 8, x.extractLsb' 8 8, x.extractLsb' 0 8]

/-- bytes64: the bytes of a 64-bit value, the most significant first (00_scope.md R11). -/
def bytes64 (y : BitVec 64) : List Byte :=
  [y.extractLsb' 56 8, y.extractLsb' 48 8, y.extractLsb' 40 8, y.extractLsb' 32 8,
    y.extractLsb' 24 8, y.extractLsb' 16 8, y.extractLsb' 8 8, y.extractLsb' 0 8]

/-- zeros(n) (00_scope.md R12). -/
def zeros (n : Nat) : List Byte := List.replicate n 0#8

/-- The variant that V names; 2 and 3 are reserved (30_encoding.md R84). -/
def variantOf (v : BitVec 2) : Option Variant :=
  if v = 0#2 then some .sha256 else if v = 1#2 then some .sha224 else none

/-- N of UPDATE from its field N - 1: 1 to 4 (30_encoding.md R81, R85). -/
def byteCount (nMinus1 : BitVec 2) : Nat := nMinus1.toNat + 1

/-- Message byte `k` of DATA: DATA[31-8k : 24-8k] (20_memory.md R54). -/
def laneByte (data : Word) (k : Nat) : Byte := data.extractLsb' (24 - 8 * k) 8

/-- The message bytes of UPDATE N, DATA in message order; the lanes from N up are ignored (20_memory.md R54, 30_encoding.md
R89). -/
def laneBytes (nMinus1 : BitVec 2) (data : Word) : List Byte :=
  (List.range (byteCount nMinus1)).map (laneByte data)

/-- NW: how many words of the digest the variant emits (10_state.md R22). -/
def nw : Variant → Nat
  | .sha256 => 8
  | .sha224 => 7

/-- H[I] for the index field of READ (30_encoding.md R86). -/
def hashWord (h : HashState) (i : BitVec 3) : Word := h[i.toNat]'i.isLt

end Sys2Proof.Machine
end

