-- ==== Sys2Proof/Machine/Padder.lean ====
section
/-! DEFINITION. The padding blocks of the finalizer (42_padder.md R141 to R147). -/

namespace Sys2Proof.Machine

/-- The residual BUF[0..ℓ-1] with ℓ = BUFLEN (42_padder.md R141, 10_state.md R24). -/
def liveResidual (s : State) : List Byte := s.buf.toList.take s.bufLen.val

/-- total_bits = (8 · (BYTECNT + ℓ)) mod 2^64 (42_padder.md R142; log 15 for messages of 2^61 bytes or more). -/
def totalBits (byteCnt : BitVec 64) (residualLen : Nat) : BitVec 64 :=
  8#64 * (byteCnt + BitVec.ofNat 64 residualLen)

/-- P1: the residual, the byte 0x80, and zeros up to 64 bytes (42_padder.md R143). -/
def firstPadding (residual : List Byte) : List Byte :=
  residual ++ [0x80#8] ++ zeros (63 - residual.length)

/-- P2, the second block of edge case A (42_padder.md R144). -/
def secondPadding (bits : BitVec 64) : List Byte := zeros 56 ++ bytes64 bits

/-- P, the one block of edge case B: P1 with its last 8 bytes replaced by the length field (42_padder.md R145, R146). -/
def onlyPadding (residual : List Byte) (bits : BitVec 64) : List Byte :=
  (firstPadding residual).take 56 ++ bytes64 bits

/-- Edge case A: the pad byte and the residual leave fewer than 8 bytes (42_padder.md R144). -/
def needsTwoBlocks (residualLen : Nat) : Bool := 56 < residualLen + 1

/-- The blocks that finalization compresses, in order (42_padder.md R144, R145, R147). -/
def paddingBlocks (residual : List Byte) (bits : BitVec 64) : List (List Byte) :=
  if needsTwoBlocks residual.length then [firstPadding residual, secondPadding bits]
  else [onlyPadding residual bits]

end Sys2Proof.Machine
end

