-- ==== Sys2Proof/Machine/Compression.lean ====
section
/-! DEFINITION. The Compression Function's word primitives, the round step and the feed-forward (40_compression.md R100 to
R112). -/

namespace Sys2Proof.Machine

/-- rotr(n, x), for 1 ≤ n ≤ 31 (40_compression.md R100). -/
def rotr (n : Nat) (x : Word) : Word := x >>> n ||| x <<< (32 - n)

/-- shr(n, x) (40_compression.md R101). -/
def shr (n : Nat) (x : Word) : Word := x >>> n

/-- Σ0 (40_compression.md R102). -/
def bigSigma0 (x : Word) : Word := rotr 2 x ^^^ rotr 13 x ^^^ rotr 22 x

/-- Σ1 (40_compression.md R103). -/
def bigSigma1 (x : Word) : Word := rotr 6 x ^^^ rotr 11 x ^^^ rotr 25 x

/-- Ch (40_compression.md R104). -/
def ch (x y z : Word) : Word := (x &&& y) ^^^ (~~~x &&& z)

/-- Maj (40_compression.md R105). -/
def maj (x y z : Word) : Word := (x &&& y) ^^^ (x &&& z) ^^^ (y &&& z)

/-- T1 of a round with round constant `k` and schedule word `w` (40_compression.md R108). -/
def temp1 (k w : Word) (v : Working) : Word := v.h + bigSigma1 v.e + ch v.e v.f v.g + k + w

/-- T2 of a round (40_compression.md R109). -/
def temp2 (v : Working) : Word := bigSigma0 v.a + maj v.a v.b v.c

/-- The round step: every right-hand side reads the values before the round (40_compression.md R110). -/
def roundStep (k w : Word) (v : Working) : Working where
  a := temp1 k w v + temp2 v
  b := v.a
  c := v.b
  d := v.c
  e := v.d + temp1 k w v
  f := v.e
  g := v.f
  h := v.g

/-- a..h at the start of a compression (10_state.md R29, 40_compression.md R111). -/
def loadWorking (h : HashState) : Working where
  a := h[0]
  b := h[1]
  c := h[2]
  d := h[3]
  e := h[4]
  f := h[5]
  g := h[6]
  h := h[7]

/-- The feed-forward: each hash word plus its working variable after round 63 (40_compression.md R112). -/
def feedForward (h : HashState) (v : Working) : HashState :=
  #v[h[0] + v.a, h[1] + v.b, h[2] + v.c, h[3] + v.d, h[4] + v.e, h[5] + v.f, h[6] + v.g, h[7] + v.h]

end Sys2Proof.Machine
end

