-- ==== Sys2Proof/Machine/Scheduler.lean ====
section
/-! DEFINITION. The Message Scheduler in the ring form that the datapath uses, and the 64 rounds that consume it
(41_scheduler.md R130 to R136; 40_compression.md R111). -/

namespace Sys2Proof.Machine

/-- σ0 (41_scheduler.md R130). -/
def smallSigma0 (x : Word) : Word := rotr 7 x ^^^ rotr 18 x ^^^ shr 3 x

/-- σ1 (41_scheduler.md R131). -/
def smallSigma1 (x : Word) : Word := rotr 17 x ^^^ rotr 19 x ^^^ shr 10 x

/-- Big-endian word `j` of a block, W[j] for j < 16 (41_scheduler.md R132). A block is the list of its 64 bytes in message
order; `compress` checks the length. -/
def blockWord (block : List Byte) (j : Nat) : Word :=
  be32 (block.getD (4 * j) 0) (block.getD (4 * j + 1) 0) (block.getD (4 * j + 2) 0) (block.getD (4 * j + 3) 0)

/-- The ring filled from a block (41_scheduler.md R134, first loop). -/
def loadRing (block : List Byte) : Vector Word 16 :=
  #v[blockWord block 0, blockWord block 1, blockWord block 2, blockWord block 3,
    blockWord block 4, blockWord block 5, blockWord block 6, blockWord block 7,
    blockWord block 8, blockWord block 9, blockWord block 10, blockWord block 11,
    blockWord block 12, blockWord block 13, blockWord block 14, blockWord block 15]

/-- The ring after the scheduler's part of round `t`: from t = 16 on, slot t mod 16 takes W[t] (41_scheduler.md R134). -/
def expandRing (t : Nat) (ring : Vector Word 16) : Vector Word 16 :=
  if 16 ≤ t then
    ring.set (t % 16)
      (smallSigma1 ring[(t - 2) % 16] + ring[(t - 7) % 16] + smallSigma0 ring[(t - 15) % 16] + ring[t % 16])
  else ring

/-- The datapath at the start of a compression (10_state.md R29, R30; 41_scheduler.md R136). -/
def loadDatapath (h : HashState) (block : List Byte) : Datapath where
  work := loadWorking h
  ring := loadRing block
  t := 0

/-- One round of the datapath: the ring gives W[t], the round step consumes it, t counts up; at t = 64 the rounds are done
(10_state.md R30, R31; 40_compression.md R110, R111). -/
def datapathRound (d : Datapath) : Datapath :=
  if ht : d.t.val < 64 then
    { work := roundStep (roundConstant d.t.val) (expandRing d.t.val d.ring)[d.t.val % 16] d.work
      ring := expandRing d.t.val d.ring
      t := ⟨d.t.val + 1, Nat.succ_lt_succ ht⟩ }
  else d

/-- `n` rounds (40_compression.md R111). -/
def datapathRounds : Nat → Datapath → Datapath
  | 0, d => d
  | n + 1, d => datapathRounds n (datapathRound d)

end Sys2Proof.Machine
end

