-- ==== Sys2Proof/Machine/Ops.lean ====
section
/-! DEFINITION. The named operations on the registers that the commands share: recording an error, the phase table,
compressing a block, absorbing a byte. -/

namespace Sys2Proof.Machine

/-- What a command, or a step, answers. -/
abbrev Result := Host.Outcome State Fault Refusal

/-- Go on with `f` after a next state; a fault or a refusal ends it. -/
def andThen (r : Result) (f : State → Result) : Result :=
  match r with
  | .next s => f s
  | .fault x => .fault x
  | .refused x => .refused x

/-- RDATA <- 0, which every command begins with (43_commands.md R160, 10_state.md R35). -/
def clearRData (s : State) : State := { s with rdata := 0 }

/-- raise Error(c), the engine's only exception: the first code is kept, ERR is set, RDATA is 0, nothing else changes
(60_exceptions.md R203). There is no return from it (R210). -/
def raiseError (c : ErrorCode) (s : State) : State :=
  { s with ecode := if s.err then s.ecode else c, err := true, rdata := 0 }

/-- Which phases accept a command (43_commands.md R168). -/
def accepts : Instr → Phase → Bool
  | .nop, _ => true
  | .init _, _ => true
  | .update _ _, phase => phase = .absorb
  | .finish, phase => phase = .absorb
  | .read _, phase => phase = .done

/-- A command's step once it is decoded: RDATA <- 0, the phase check, then its effect (43_commands.md R160). -/
def runAccepted (i : Instr) (effect : State → Result) (s : State) : Result :=
  if accepts i s.phase then effect (clearRData s) else .next (raiseError .state s)

/-- The datapath after the 64 rounds of a block (40_compression.md R111, R113). -/
@[irreducible] def compressedDatapath (h : HashState) (block : List Byte) : Datapath :=
  datapathRounds 64 (loadDatapath h block)

/-- compress(H, B): it writes H and the datapath registers (40_compression.md R113, R115). A block that has not 64 bytes is
the assertion LEN (R114, 60_exceptions.md R208). -/
def compress (block : List Byte) (s : State) : Result :=
  if block.length = 64 then
    .next
      { s with
        h := feedForward s.h (compressedDatapath s.h block).work
        dp := compressedDatapath s.h block }
  else .fault .len

/-- Compress blocks in order (40_compression.md R116). -/
def compressAll : List (List Byte) → State → Result
  | [], s => .next s
  | block :: rest, s => andThen (compress block s) (compressAll rest)

/-- BYTECNT <- BYTECNT + 64 and BUFLEN <- 0, after a full message block is compressed (43_commands.md R164). -/
def emptyBuffer (s : State) : State := { s with byteCnt := s.byteCnt + 64#64, bufLen := 0 }

/-- BUF[BUFLEN] <- b and BUFLEN <- BUFLEN + 1 (43_commands.md R164). -/
def storeByte (b : Byte) (s : State) (room : s.bufLen.val < 64) : State :=
  { s with
    buf := s.buf.set s.bufLen.val b room
    bufLen := ⟨s.bufLen.val + 1, Nat.succ_lt_succ room⟩ }

/-- absorb(b): store the byte, and compress the block when it is full (43_commands.md R164). BUFLEN = 64, where no byte of
BUF is left, is held by no state of a run (log 4). -/
def absorbByte (b : Byte) (s : State) : Result :=
  if room : s.bufLen.val < 64 then
    if (storeByte b s room).bufLen.val = 64 then
      andThen (compress (storeByte b s room).buf.toList (storeByte b s room)) fun t => .next (emptyBuffer t)
    else .next (storeByte b s room)
  else .fault .bufOverrun

/-- Absorb bytes in message order (43_commands.md R163). -/
def absorbBytes : List Byte → State → Result
  | [], s => .next s
  | b :: rest, s => andThen (absorbByte b s) (absorbBytes rest)

end Sys2Proof.Machine
end

