-- ==== Sys2Proof/Machine/Absorb.lean ====
section
/-! DEFINITION. The data command UPDATE (43_commands.md R163). -/

namespace Sys2Proof.Machine

/-- UPDATE N, DATA: absorb the first N lanes of DATA in order (43_commands.md R163). -/
def execUpdate (nMinus1 : BitVec 2) (data : Word) (s : State) : Result :=
  runAccepted (.update nMinus1 data) (absorbBytes (laneBytes nMinus1 data)) s

end Sys2Proof.Machine
end

