-- ==== Sys2Proof/Machine/Control.lean ====
section
/-! DEFINITION. The control commands NOP and INIT (43_commands.md R161, R162). -/

namespace Sys2Proof.Machine

/-- NOP: nothing beyond RDATA <- 0 (43_commands.md R161). -/
def execNop (s : State) : Result :=
  runAccepted .nop .next s

/-- INIT's effect: load IV[V], select the variant, open a computation, clear the error record. BUF keeps its bytes
(43_commands.md R162). -/
def openDigest (var : Variant) (s : State) : State :=
  { s with
    h := ivTable var
    var := var
    bufLen := 0
    byteCnt := 0
    phase := .absorb
    err := false
    ecode := .none }

/-- INIT V (43_commands.md R162). A reserved V is ILLEGAL, with no other effect (30_encoding.md R84). -/
def execInit (v : BitVec 2) (s : State) : Result :=
  match variantOf v with
  | none => .next (raiseError .illegal s)
  | some var => runAccepted (.init v) (fun t => .next (openDigest var t)) s

end Sys2Proof.Machine
end

