-- ==== Sys2Proof/Machine/Digest.lean ====
section
/-! DEFINITION. The commands that close a computation and give out its digest, FINISH and READ (43_commands.md R170, R175). -/

namespace Sys2Proof.Machine

/-- BUFLEN <- 0 and PHASE <- DONE (43_commands.md R170). -/
def closeDigest (s : State) : State := { s with bufLen := 0, phase := .done }

/-- FINISH's effect: compress the padding blocks of the live residual, then close (43_commands.md R170). -/
def finalize (s : State) : Result :=
  andThen (compressAll (paddingBlocks (liveResidual s) (totalBits s.byteCnt s.bufLen.val)) s) fun t => .next (closeDigest t)

/-- FINISH (43_commands.md R170). -/
def execFinish (s : State) : Result :=
  runAccepted .finish finalize s

/-- READ's effect: RDATA <- H[I] if the variant emits word I, else RANGE (43_commands.md R160, R175). -/
def emitWord (i : BitVec 3) (s : State) : State :=
  if i.toNat < nw s.var then { s with rdata := hashWord s.h i } else raiseError .range s

/-- READ I (43_commands.md R175). -/
def execRead (i : BitVec 3) (s : State) : Result :=
  runAccepted (.read i) (fun t => .next (emitWord i t)) s

end Sys2Proof.Machine
end

