-- ==== Sys2Proof/Machine/Dispatch.lean ====
section
/-! DEFINITION. The meaning of each command, one arm for each row of the opcode table (43_commands.md R160). -/

namespace Sys2Proof.Machine

def exec (i : Instr) (s : State) : Host.Outcome State Fault Refusal :=
  match i with
  | .nop => Sys2Proof.Machine.execNop s
  | .init v => Sys2Proof.Machine.execInit v s
  | .update nMinus1 data => Sys2Proof.Machine.execUpdate nMinus1 data s
  | .finish => Sys2Proof.Machine.execFinish s
  | .read index => Sys2Proof.Machine.execRead index s

end Sys2Proof.Machine
end

