-- ==== Sys2Proof/Machine/Port.lean ====
section
/-! DEFINITION. The command port: a command's step from its words, and the valid/ready handshake edge by edge (20_memory.md
R50 to R53; 70_reset_and_hazards.md R230, R231, R235; 43_commands.md R160). -/

namespace Sys2Proof.Machine

/-- The step of an accepted command: decode, then run it or record ILLEGAL (43_commands.md R160, 30_encoding.md R91). -/
def runCommand (cmd data : Word) (s : State) : Result :=
  match decode cmd data with
  | .ok i => exec i s
  | .error _ => .next (raiseError .illegal s)

/-- The port in the cycle that answers a command: rsp_valid = 1, ready for the next (20_memory.md R51, R52; logs 9, 19). -/
def answeredPort (p : Port) : Port := { p with ready := true, rspValid := true, flight := none }

/-- Run a command and answer it: its whole effect is there with the response (20_memory.md R52, R60). -/
def respond (cmd data : Word) (s : State) : Result :=
  andThen (runCommand cmd data s) fun t => .next { t with port := answeredPort t.port }

/-- Wait for the response of the command in flight, if there is one (20_memory.md R51, R65). -/
def drain (s : State) : Result :=
  match s.port.flight with
  | none => .next s
  | some f => respond f.cmd f.data s

/-- What the host presents at an edge (20_memory.md R50). -/
def offerOf (p : Pins) : Option Transaction :=
  if p.cmdValid then some { cmd := p.cmd, data := p.data } else none

/-- The host no longer presents the command it must hold (70_reset_and_hazards.md R235). -/
def breaksHold (held presented : Option Transaction) : Bool :=
  match held with
  | none => false
  | some x => presented ≠ some x

/-- Why an edge has no meaning: the host breaks its hold, or drives cmd_valid while the wrapper does (70_reset_and_hazards.md R235,
R236). The hold rule has no exception for reset (log 10); a CMD write drives the port until it is accepted (20_memory.md R65; log
20). -/
def edgeRefusal (p : Pins) (s : State) : Option Refusal :=
  if breaksHold s.port.offer (offerOf p) then some .handshakeHold
  else if p.cmdValid && s.port.write.isSome then some .twoMasters
  else none

/-- What is presented at an edge: the command of the CMD write that waits on the bus, or what the host presents (20_memory.md R51,
R65). -/
def presented (p : Pins) (s : State) : Option Transaction :=
  match s.port.write with
  | some x => some x
  | none => offerOf p

/-- Which latency parameter a command word takes (00_scope.md R8; log 8). -/
def latencyClass (cmd data : Word) : LatencyClass :=
  match decode cmd data with
  | .ok .nop => .nop
  | .ok (.init _) => .init
  | .ok (.update _ _) => .update
  | .ok .finish => .finish
  | .ok (.read _) => .read
  | .error _ => .illegal

/-- Accept a command: its words are sampled, cmd_ready falls, BUSY rises, nothing else changes yet (20_memory.md R51, R52).
It is answered LAT edges later (log 9). The latency is that of the class and of the acceptances so far, whatever the data and
whichever the engine (logs 8, 16: DESIGN CHOICE, unsafe). -/
def acceptCommand (cmd data : Word) (s : State) : State :=
  { s with
    port :=
      { ready := false
        rspValid := false
        flight := some { cmd := cmd, data := data, wait := Config.latency (latencyClass cmd data) s.draws - 1 }
        offer := none
        write := none }
    draws := s.draws + 1 }

/-- rst at an edge: the state after reset, whatever was in flight (70_reset_and_hazards.md R230, R231). The host's events and
the drawn latencies are not the engine's (log 3). A command presented at the edge is not accepted, so the host must still hold
it (R231, R235; log 10), and a CMD write still waits on the bus (20_memory.md R65; log 14). -/
def resetEngine (p : Pins) (s : State) : State :=
  { State.reset with
    port := { State.reset.port with offer := offerOf p, write := s.port.write }
    inputs := s.inputs
    draws := s.draws }

/-- An edge with rst = 0 while a command is in flight: the last one answers it, the ones before count (20_memory.md R52).
`offer` is what the host presents meanwhile. -/
def flightEdge (f : Flight) (offer : Option Transaction) (s : State) : Result :=
  match f.wait with
  | 0 => respond f.cmd f.data { s with port := { s.port with offer := offer } }
  | k + 1 =>
    .next
      { s with port := { s.port with ready := false, rspValid := false, flight := some { f with wait := k }, offer := offer } }

/-- An edge with rst = 0 and no command in flight: a command presented while cmd_ready = 1 is accepted; otherwise the port
becomes ready (20_memory.md R51, 70_reset_and_hazards.md R230). -/
def idleEdge (p : Pins) (s : State) : State :=
  match presented p s, s.port.ready with
  | some x, true => acceptCommand x.cmd x.data s
  | _, _ => { s with port := { s.port with ready := true, rspValid := false, flight := none, offer := offerOf p } }

/-- One rising edge of clk (20_memory.md R50 to R52; 70_reset_and_hazards.md R230, R231, R235, R236). -/
def clockEdge (p : Pins) (s : State) : Result :=
  match edgeRefusal p s with
  | some r => .refused r
  | none =>
    if p.rst then .next (resetEngine p s)
    else
      match s.port.flight with
      | some f => flightEdge f (offerOf p) s
      | none => .next (idleEdge p s)

/-- Wait until the CMD write on the bus is accepted, if there is one: the command in flight is answered, and the write's is then
in flight (20_memory.md R51, R65; the edges with rst = 0 that this takes: log 14). -/
def settle (s : State) : Result :=
  match s.port.write with
  | none => .next s
  | some x => andThen (drain s) fun t => .next (acceptCommand x.cmd x.data t)

/-- A whole transaction: the host presents the command, it is accepted once those before it, a CMD write on the bus too, are
answered, and it is answered (20_memory.md R51 to R53, R65; logs 11, 14). -/
def transact (cmd data : Word) (s : State) : Result :=
  if breaksHold s.port.offer (some { cmd := cmd, data := data }) then .refused .handshakeHold
  else
    andThen (settle { s with port := { s.port with offer := none } }) fun t =>
      andThen (drain t) (respond cmd data)

end Sys2Proof.Machine
end

