-- ==== Sys2Proof/Machine/Wrapper.lean ====
section
/-! DEFINITION. The optional bus wrapper: 16 bytes at SHA_BASE (20_memory.md R63 to R65). -/

namespace Sys2Proof.Machine

/-- The bus address of an offset of the wrapper at `base`: SHA_BASE + offset, modulo 2^32 (20_memory.md R63; log 12). -/
def wrapperAddr (base : Word) (offset : BitVec 4) : Word :=
  base + offset.zeroExtend 32

/-- An address is a multiple of 4, the natural alignment of a 32-bit access (20_memory.md R64). -/
def wordAligned (addr : Word) : Bool := addr.extractLsb' 0 2 = 0#2

/-- The offset of an access in the window of the wrapper at `base`. Only naturally aligned 32-bit accesses to the offsets 0x0,
0x4, 0x8 and 0xC are defined, and a model refuses the others (20_memory.md R64; log 12). `base` is the SHA_BASE of the engine
whose bus this is; several engines: log 16, DESIGN CHOICE. -/
def wrapperOffset (base addr : Word) (size : BusSize) : Except Refusal (BitVec 4) :=
  if 16 ≤ (addr - base).toNat then .error .busOutsideWindow
  else if size = .word ∧ wordAligned addr = true ∧ wordAligned (addr - base) = true then
    .ok ((addr - base).extractLsb' 0 4)
  else .error .busUndefined

/-- A write of CMD: the wrapper presents its command (cmd = the value, data = the DATA register) and the write stays on the bus
until an edge accepts it (20_memory.md R51, R65; log 14). A command that another master presents on the port is a second master
(70_reset_and_hazards.md R236; log 20). -/
def wrapperIssue (value : Word) (s : State) : Result :=
  if s.port.offer.isSome then .refused .twoMasters
  else .next { s with port := { s.port with write := some { cmd := value, data := s.busData } } }

/-- The effect of a bus write at an offset: DATA takes the value, CMD issues a command, STATUS and RDATA ignore it (20_memory.md
R63). -/
def wrapperWriteAt (offset : BitVec 4) (value : Word) (s : State) : Result :=
  if offset = 0x0#4 then .next { s with busData := value }
  else if offset = 0x4#4 then wrapperIssue value s
  else .next s

/-- A bus write. It begins once a CMD write before it is complete (20_memory.md R65; log 14). -/
def wrapperWrite (base addr : Word) (size : BusSize) (value : Word) (s : State) : Result :=
  match wrapperOffset base addr size with
  | .error r => .refused r
  | .ok offset => andThen (settle s) (wrapperWriteAt offset value)

/-- What a bus read of an offset returns (20_memory.md R63). -/
def wrapperReadValue (offset : BitVec 4) (s : State) : Word :=
  if offset = 0x0#4 then s.busData
  else if offset = 0x4#4 then 0
  else if offset = 0x8#4 then statusWord s
  else s.rdata

/-- A bus read: once a CMD write before it is complete (20_memory.md R65; log 14), it changes nothing of the engine (R61, R63; log
13). -/
def wrapperRead (base addr : Word) (size : BusSize) (s : State) : Result :=
  match wrapperOffset base addr size with
  | .error r => .refused r
  | .ok offset => andThen (settle s) fun t => .next { t with busRead := wrapperReadValue offset t }

end Sys2Proof.Machine
end

