-- ==== Sys2Proof/Machine/Events.lean ====
section
/-! DEFINITION. What one event of the host does to the engine (log 1). -/

namespace Sys2Proof.Machine

/-- The effect of one host event on an engine whose wrapper stands at `base` (20_memory.md R50 to R53, R63). -/
def handle (base : Word) (e : HostEvent) (s : State) : Result :=
  match e with
  | .command cmd data => transact cmd data s
  | .edge pins => clockEdge pins s
  | .busWrite addr size value => wrapperWrite base addr size value s
  | .busRead addr size => wrapperRead base addr size s

/-- The host's next event, and the state once it is taken from the list (log 1). -/
def nextEvent (s : State) : Option (HostEvent × State) :=
  match s.inputs with
  | [] => none
  | e :: rest => some (e, { s with inputs := rest })

/-- A step: the host's next event takes effect; with none, an idle engine holds its state (60_exceptions.md R212).
The one engine of a step is engine 0 (log 16). -/
def runNextEvent (s : State) : Result :=
  match nextEvent s with
  | none => .next s
  | some (e, t) => handle (Config.shaBase 0) e t

/-- A transaction placed as the host's next event, on a port that waits for nothing (log 1). -/
def placeCommand (cmd data : Word) (s : State) : State :=
  { s with
    port := { s.port with flight := none, offer := none, write := none }
    inputs := .command cmd data :: s.inputs }

end Sys2Proof.Machine
end

