-- ==== Sys2Proof/Machine/Step.lean ====
section
/-! DEFINITION. One step of the machine, and the placing of a command where the next step takes it. There is no program
counter and no fetch: the engine executes the host's command stream (10_state.md R31; log 1). -/

namespace Sys2Proof.Machine

/-- One step: the host's next event takes effect (00_scope.md R6, 20_memory.md R53). -/
def step (s : State) : Host.Outcome State Fault Refusal := runNextEvent s

/-- `s` with the transaction whose bits are `w` as the host's next event. -/
def State.withFetchWord (s : State) (nbits w : Nat) : State :=
  placeCommand (tableWords nbits w).1 (tableWords nbits w).2 s

end Sys2Proof.Machine
end

