-- ==== Sys2Proof/Machine/Platform.lean ====
section
/-! DEFINITION. A platform of several engines that share nothing, each with one host (10_state.md R41; 20_memory.md R69;
60_exceptions.md R213; log 16). -/

namespace Sys2Proof.Machine

/-- The engines of a platform; engine `k` is driven by host `k`. -/
abbrev Platform := List State

/-- All engines start in the reset state (60_exceptions.md R213), so with the same count of drawn latencies: engines that accept
the same classes of commands take the same cycles (logs 8, 16: DESIGN CHOICE, unsafe). -/
def platformReset : Platform := List.replicate Config.nEngines State.reset

/-- Host `host` issues an event to engine `k`: the engine takes it and no other engine changes. A second master on the port is
refused (70_reset_and_hazards.md R236). DESIGN CHOICE (log 16), where the spec is silent: host `k` owns engine `k`, and engine
`k`'s wrapper stands at the base `Config.shaBase k` on a bus of host `k`'s own. -/
def platformIssue (host k : Nat) (e : HostEvent) (p : Platform) : Host.Outcome Platform Fault Refusal :=
  if host = k then
    match p[k]? with
    | none => .refused .noSuchEngine
    | some s =>
      match handle (Config.shaBase k) e s with
      | .next t => .next (p.set k t)
      | .fault x => .fault x
      | .refused x => .refused x
  else .refused .twoMasters

end Sys2Proof.Machine
end

