-- ==== Sys2Proof/Machine/Reference.lean ====
section
/-! DEFINITION. The algorithm as functions, with the full 64-word schedule table: what the datapath is compared with
(41_scheduler.md R132, R133; 40_compression.md R113; 42_padder.md R147, R150). No step calls these. -/

namespace Sys2Proof.Machine

/-- Extend a schedule table by `n` words with the recurrence of 41_scheduler.md R133. -/
def extendSchedule : Nat → List Word → List Word
  | 0, w => w
  | n + 1, w =>
    extendSchedule n
      (w ++ [smallSigma1 (w.getD (w.length - 2) 0) + w.getD (w.length - 7) 0
        + smallSigma0 (w.getD (w.length - 15) 0) + w.getD (w.length - 16) 0])

/-- W[0..63] of a block (41_scheduler.md R132, R133). -/
@[irreducible] def scheduleTable (block : List Byte) : List Word :=
  extendSchedule 48 ((List.range 16).map (blockWord block))

/-- W[t] (41_scheduler.md R132, R133). -/
def scheduleWord (block : List Byte) (t : Nat) : Word := (scheduleTable block).getD t 0

/-- The 64 rounds over the full table (40_compression.md R111, R113). -/
def tableRounds (block : List Byte) (v : Working) : Working :=
  (List.range 64).foldl (fun x t => roundStep (roundConstant t) (scheduleWord block t) x) v

/-- compress(H, B) with the full table (40_compression.md R113). -/
@[irreducible] def compressTable (h : HashState) (block : List Byte) : HashState :=
  feedForward h (tableRounds block (loadWorking h))

/-- The schedule word that round `t` consumes in the ring form (41_scheduler.md R134). -/
def ringWord (h : HashState) (block : List Byte) (t : Nat) : Word :=
  (datapathRounds (t + 1) (loadDatapath h block)).ring[t % 16]

/-- finalize(H, BUF, ℓ, BYTECNT), with the residual BUF[0..ℓ-1] as a list (42_padder.md R147). -/
def finalizeTable (h : HashState) (residual : List Byte) (byteCnt : BitVec 64) : HashState :=
  (paddingBlocks residual (totalBits byteCnt residual.length)).foldl compressTable h

/-- floor(L / 64) (42_padder.md R150). -/
def fullBlocks (message : List Byte) : Nat := message.length / 64

/-- M_j (42_padder.md R150). -/
def messageBlock (message : List Byte) (j : Nat) : List Byte := (message.drop (64 * j)).take 64

/-- The residual R of a message (42_padder.md R141, R150). -/
def messageResidual (message : List Byte) : List Byte := message.drop (64 * fullBlocks message)

/-- The hash state after the full blocks of a message (42_padder.md R140, R150). -/
def absorbedHash (v : Variant) (message : List Byte) : HashState :=
  (List.range (fullBlocks message)).foldl (fun h j => compressTable h (messageBlock message j)) (ivTable v)

/-- The hash state that finalization leaves (42_padder.md R150). -/
def digestHash (v : Variant) (message : List Byte) : HashState :=
  finalizeTable (absorbedHash v message) (messageResidual message) (BitVec.ofNat 64 (64 * fullBlocks message))

/-- The digest bytes of a hash state: NW words, big-endian (42_padder.md R148). -/
def serialize (v : Variant) (h : HashState) : List Byte :=
  (h.toList.take (nw v)).flatMap bytes32

/-- digest_v(M) (42_padder.md R150). -/
def digest (v : Variant) (message : List Byte) : List Byte :=
  serialize v (digestHash v message)

end Sys2Proof.Machine
end

