-- ==== Sys2Proof/Machine/Script.lean ====
section
/-! DEFINITION. The command scripts of the spec's programs as data, with the words each line issues (30_encoding.md R92, R93;
log 18). -/

namespace Sys2Proof.Machine

/-- One line of a script (30_encoding.md R92). -/
inductive ScriptLine where
  /-- NOP. -/
  | nop
  /-- INIT sha256 or INIT sha224. -/
  | init (var : Variant)
  /-- INIT #v, any V of two bits, the reserved ones too. -/
  | initNumber (v : BitVec 2)
  /-- UPDATE n, 0xHHHHHHHH, with n - 1 as the field holds it. -/
  | update (nMinus1 : BitVec 2) (data : Word)
  /-- FINISH. -/
  | finish
  /-- READ i. -/
  | read (i : BitVec 3)
  /-- .word 0xHHHHHHHH, a raw CMD with DATA = 0. -/
  | raw (cmd : Word)
  deriving DecidableEq, Repr

/-- V of a variant (30_encoding.md R84, R92). -/
def variantField : Variant → BitVec 2
  | .sha256 => 0#2
  | .sha224 => 1#2

/-- The transaction a line issues (30_encoding.md R92). -/
def assemble : ScriptLine → Transaction
  | .nop => { cmd := encodeCmd .nop, data := 0 }
  | .init var => { cmd := encodeCmd (.init (variantField var)), data := 0 }
  | .initNumber v => { cmd := encodeCmd (.init v), data := 0 }
  | .update nMinus1 data => { cmd := encodeCmd (.update nMinus1 data), data := data }
  | .finish => { cmd := encodeCmd .finish, data := 0 }
  | .read i => { cmd := encodeCmd (.read i), data := 0 }
  | .raw cmd => { cmd := cmd, data := 0 }

/-- UPDATE.B b (30_encoding.md R93). -/
def updateByteLine (b : Byte) : ScriptLine := .update 0#2 (b.zeroExtend 32 <<< 24)

/-- ABSORB "<bytes>": UPDATEs of four bytes, and a last one of the bytes that are left (30_encoding.md R93). -/
def absorbScript : List Byte → List ScriptLine
  | [] => []
  | [a] => [.update 0#2 (be32 a 0 0 0)]
  | [a, b] => [.update 1#2 (be32 a b 0 0)]
  | [a, b, c] => [.update 2#2 (be32 a b c 0)]
  | a :: b :: c :: d :: rest => .update 3#2 (be32 a b c d) :: absorbScript rest

/-- READ 0 to READ NW-1 (30_encoding.md R93). -/
def readScript (var : Variant) : List ScriptLine :=
  (List.range (nw var)).map fun i => .read (BitVec.ofNat 3 i)

/-- DIGEST sha256, "<bytes>" and DIGEST sha224, "<bytes>" (30_encoding.md R93; 00_scope.md R15). -/
def digestScript (var : Variant) (message : List Byte) : List ScriptLine :=
  .init var :: absorbScript message ++ .finish :: readScript var

/-- A script as the host's events (20_memory.md R53). -/
def scriptEvents (lines : List ScriptLine) : List HostEvent :=
  lines.map fun l => .command (assemble l).cmd (assemble l).data

end Sys2Proof.Machine
end

