-- ==== Sys2Proof/Safety.lean ====
section
/-! DEFINITION. What the statements speak of: the invariant of the registers, the reason a command is rejected, what a host
can tell two states apart by, and what a state says of the message absorbed so far. -/

namespace Sys2Proof.Machine

/-- What every state of a run keeps between steps: BUFLEN ≤ 63 and 0 outside ABSORB (10_state.md R25, 43_commands.md R162,
R170), SHA-256 in IDLE (R230), BYTECNT a multiple of 64 (43_commands.md R165), ECODE 0 exactly when ERR is 0 and never LEN
(10_state.md R28, 60_exceptions.md R201), a port that is not ready while a command is in flight and answers only when it is
ready (20_memory.md R51, R52), and one master on the port (70_reset_and_hazards.md R236). -/
abbrev State.Inv (s : State) : Prop :=
  s.bufLen.val ≤ 63 ∧
  (s.phase ≠ .absorb → s.bufLen.val = 0) ∧
  (s.phase = .idle → s.var = .sha256) ∧
  s.byteCnt.toNat % 64 = 0 ∧
  (s.err = false ↔ s.ecode = .none) ∧
  s.ecode ≠ .len ∧
  (s.port.flight.isSome = true → s.port.ready = false) ∧
  (s.port.rspValid = true → s.port.ready = true ∧ s.port.flight = none) ∧
  (s.port.write.isSome = true → s.port.offer = none)

/-- Why a command would be rejected, with the priority ILLEGAL, STATE, RANGE (60_exceptions.md R205, 43_commands.md R160). -/
def rejection (cmd data : Word) (s : State) : Option ErrorCode :=
  match decode cmd data with
  | .error _ => some .illegal
  | .ok (.update _ _) => if s.phase = .absorb then none else some .state
  | .ok .finish => if s.phase = .absorb then none else some .state
  | .ok (.read i) =>
    if s.phase ≠ .done then some .state else if nw s.var ≤ i.toNat then some .range else none
  | .ok .nop => none
  | .ok (.init _) => none

/-- Two states that no host can tell apart: they differ at most in registers that no later response depends on, that is, H
outside ABSORB but for the words DONE may emit, BYTECNT and BUF outside ABSORB, BUF from BUFLEN on, and the datapath registers
(10_state.md R24, R39, R40; 70_reset_and_hazards.md R232; 43_commands.md R175). They have the same latencies to come, which the model
gives to one class and count whatever the data (log 8, DESIGN CHOICE, unsafe). -/
def SameView (s t : State) : Prop :=
  s.var = t.var ∧ s.phase = t.phase ∧ s.bufLen = t.bufLen ∧ s.err = t.err ∧ s.ecode = t.ecode ∧ s.rdata = t.rdata ∧
  s.port = t.port ∧ s.busData = t.busData ∧ s.busRead = t.busRead ∧ s.inputs = t.inputs ∧ s.draws = t.draws ∧
  (s.phase = .absorb → s.h = t.h ∧ s.byteCnt = t.byteCnt ∧ liveResidual s = liveResidual t) ∧
  (s.phase = .done → ∀ i : BitVec 3, i.toNat < nw s.var → hashWord s.h i = hashWord t.h i)

/-- Two answers that no host can tell apart. -/
def SameAnswer : Result → Result → Prop
  | .next s, .next t => SameView s t
  | .fault x, .fault y => x = y
  | .refused x, .refused y => x = y
  | .next _, .fault _ => False
  | .next _, .refused _ => False
  | .fault _, .next _ => False
  | .fault _, .refused _ => False
  | .refused _, .next _ => False
  | .refused _, .fault _ => False

/-- What an open computation holds after absorbing `m` (43_commands.md R165). -/
def Absorbed (v : Variant) (m : List Byte) (s : State) : Prop :=
  s.phase = .absorb ∧ s.var = v ∧ s.bufLen.val = m.length % 64 ∧
  s.byteCnt = BitVec.ofNat 64 (64 * (m.length / 64)) ∧
  liveResidual s = messageResidual m ∧ s.h = absorbedHash v m

/-- UPDATEs one after another. -/
def updateAll : List (BitVec 2 × Word) → State → Result
  | [], s => .next s
  | (nMinus1, data) :: rest, s => andThen (exec (.update nMinus1 data) s) (updateAll rest)

/-- The message bytes of a list of UPDATEs, in the order of acceptance (20_memory.md R70). -/
def updateBytes (l : List (BitVec 2 × Word)) : List Byte :=
  l.flatMap fun x => laneBytes x.1 x.2

/-- READs one after another. -/
def readAll : List (BitVec 3) → State → Result
  | [], s => .next s
  | i :: rest, s => andThen (exec (.read i) s) (readAll rest)

/-- Commands one after another, each to completion before the next (20_memory.md R53). -/
def runCommands : List Transaction → State → Result
  | [], s => .next s
  | x :: rest, s => andThen (runCommand x.cmd x.data s) (runCommands rest)

/-- The command in flight, if there is one. -/
def inFlight (s : State) : List Transaction :=
  match s.port.flight with
  | none => []
  | some f => [{ cmd := f.cmd, data := f.data }]

/-- The command of the CMD write that waits on the bus, if there is one (20_memory.md R65). -/
def waiting (s : State) : List Transaction := s.port.write.toList

/-- The commands that are answered by a host event, in the order of acceptance (20_memory.md R51 to R53, R65). A reset answers
none (70_reset_and_hazards.md R231); a bus access answers the command in flight only where it first waits for a CMD write (log
14). -/
def answeredBy (e : HostEvent) (s : State) : List Transaction :=
  match e with
  | .command cmd data => inFlight s ++ waiting s ++ [{ cmd := cmd, data := data }]
  | .edge pins =>
    match s.port.flight with
    | none => []
    | some f => if pins.rst = false ∧ f.wait = 0 then [{ cmd := f.cmd, data := f.data }] else []
  | .busWrite _ _ _ => if s.port.write.isSome then inFlight s else []
  | .busRead _ _ => if s.port.write.isSome then inFlight s else []

/-- The registers of the engine alone: the port, the wrapper and the model's own fields are set to their reset values. -/
def engineOnly (s : State) : State :=
  { s with
    port := State.reset.port
    busData := State.reset.busData
    busRead := State.reset.busRead
    inputs := State.reset.inputs
    draws := State.reset.draws }

end Sys2Proof.Machine
end

