-- ==== Sys2Proof/Certificates/Slice0/Obligations.lean ====
section
/-! DEFINITION. The statements for the provers. Each docstring names the rules of the spec it formalises. -/

open Sys2Proof Sys2Proof.Machine

/-! ### Encoding -/

/-- Words written out from the encodings of 30_encoding.md R82 and the table of 95_test_vectors.md 2.5. -/
def Obligations.WrittenWordsDecode : Prop :=
  decode 0x00000000#32 0xFFFFFFFF#32 = .ok .nop ∧
  decode 0x10000001#32 0x00000000#32 = .ok (.init 1#2) ∧
  decode 0x20000003#32 0x01020304#32 = .ok (.update 3#2 0x01020304#32) ∧
  decode 0x30000000#32 0x00000000#32 = .ok .finish ∧
  decode 0x40000007#32 0x00000000#32 = .ok (.read 7#3) ∧
  decode 0x00000004#32 0x00000000#32 = .error .reservedBits ∧
  decode 0x10000002#32 0x00000000#32 = .error .reservedVariant ∧
  decode 0x10000004#32 0x00000000#32 = .error .reservedBits ∧
  decode 0x21000000#32 0x00000000#32 = .error .reservedBits ∧
  decode 0x4000000F#32 0x00000000#32 = .error .reservedBits ∧
  decode 0xF0000000#32 0x00000000#32 = .error .reservedOpcode

/-- Decode and encode agree on every well-formed command with every operand (30_encoding.md R82, R91). -/
def Obligations.DecodeOfEncodeIsCommand : Prop :=
  ∀ i : Instr, i.wellFormed = true → decode (encode i).1 (encode i).2 = .ok i

/-- A word that decodes is the word of its command, and UPDATE keeps the whole DATA word (30_encoding.md R82, R89, R91). -/
def Obligations.EncodeOfDecodeIsWord : Prop :=
  ∀ (cmd data : Word) (i : Instr), decode cmd data = .ok i →
    i.wellFormed = true ∧ encodeCmd i = cmd ∧ ∀ (n : BitVec 2) (d : Word), i = .update n d → d = data

/-- 30_encoding.md R87: the reserved bits of each opcode, equivalently the match and mask of its row, decide legality; a word
that violates them is ILLEGAL, with no other effect, and is never run as another command. -/
def Obligations.LegalWordsAreTheTableRows : Prop :=
  ∀ cmd data : Word,
    ((opField cmd = 0#4 ∨ opField cmd = 3#4) →
      ((∃ i, decode cmd data = .ok i) ↔ cmd.extractLsb' 0 28 = 0#28)) ∧
    (opField cmd = 1#4 → ((∃ i, decode cmd data = .ok i) ↔ cmd.extractLsb' 1 27 = 0#27)) ∧
    (opField cmd = 2#4 → ((∃ i, decode cmd data = .ok i) ↔ cmd.extractLsb' 2 26 = 0#26)) ∧
    (opField cmd = 4#4 → ((∃ i, decode cmd data = .ok i) ↔ cmd.extractLsb' 3 25 = 0#25)) ∧
    ((∃ i, decode cmd data = .ok i) ↔ ∃ r ∈ opcodeTable, r.selects cmd = true) ∧
    (∀ i, decode cmd data = .ok i → ∀ r ∈ opcodeTable, r.selects cmd = true → r.mnemonic = mnemonicOf i) ∧
    ((∀ i, decode cmd data ≠ .ok i) → ∀ s, runCommand cmd data s = .next (raiseError .illegal s))

/-- 30_encoding.md R88: the opcodes 0x5 to 0xF are ILLEGAL with no other effect, and 0x00000000 is the only NOP. -/
def Obligations.ReservedOpcodesAreIllegal : Prop :=
  (∀ (cmd data : Word) (s : State), 5 ≤ (opField cmd).toNat → runCommand cmd data s = .next (raiseError .illegal s)) ∧
  ∀ cmd data : Word, decode cmd data = .ok .nop ↔ cmd = 0#32

/-- 30_encoding.md R89 and 20_memory.md R71: UPDATE reads lanes 0 to N-1 of DATA and ignores the others; no other command
reads DATA; no DATA makes a command ILLEGAL. -/
def Obligations.DataIsReadByUpdateLanesOnly : Prop :=
  (∀ (cmd d d' : Word) (s : State), opField cmd ≠ 2#4 → runCommand cmd d s = runCommand cmd d' s) ∧
  (∀ (n : BitVec 2) (d : Word) (k : Nat), k < byteCount n →
    (laneBytes n d)[k]? = some (BitVec.ofNat 8 (d.toNat / 2 ^ (24 - 8 * k)))) ∧
  (∀ (n : BitVec 2) (d d' : Word) (s : State),
    (∀ k < byteCount n, d.extractLsb' (24 - 8 * k) 8 = d'.extractLsb' (24 - 8 * k) 8) →
    exec (.update n d) s = exec (.update n d') s) ∧
  ∀ cmd d d' : Word, (∃ i, decode cmd d = .ok i) → ∃ i, decode cmd d' = .ok i

/-! ### The step -/

/-- A step whose next event is a transaction on a free port runs the decoded command and answers it, and a word placed by
`withFetchWord` is run by the very next step (20_memory.md R53, 43_commands.md R160; log 1). That the state after the step shows
the response cycle, with rsp_valid and cmd_ready 1 and nothing in flight, is the model's choice (log 19, DESIGN CHOICE). -/
def Obligations.StepRunsTheDecodedCommand : Prop :=
  (∀ (s : State) (cmd data : Word) (rest : List HostEvent) (i : Instr),
    s.inputs = .command cmd data :: rest → s.port.flight = none → s.port.offer = none →
    s.port.write = none → decode cmd data = .ok i →
    step s = andThen (exec i { s with inputs := rest }) fun t =>
      .next { t with port := { ready := true, rspValid := true, flight := none, offer := none, write := none } }) ∧
  ∀ (s : State) (nbits w : Nat) (i : Instr), decodeTableWord nbits w = some i →
    step (s.withFetchWord nbits w) =
      andThen (exec i { s with port := { s.port with flight := none, offer := none, write := none } }) fun t =>
        .next { t with port := { ready := true, rspValid := true, flight := none, offer := none, write := none } }

/-- A step whose next event is an undecodable transaction on a free port records ILLEGAL and answers it (43_commands.md R160,
60_exceptions.md R203). The list of host events is the model's own (log 1), and so is the choice that the state after the step
shows the response cycle (log 19, DESIGN CHOICE). -/
def Obligations.StepRejectsAnIllegalWord : Prop :=
  ∀ (s : State) (cmd data : Word) (rest : List HostEvent) (r : Illegal),
    s.inputs = .command cmd data :: rest → s.port.flight = none → s.port.offer = none →
    s.port.write = none → decode cmd data = .error r →
    step s = .next
      { s with
        inputs := rest
        ecode := if s.err = true then s.ecode else .illegal
        err := true
        rdata := 0#32
        port := { ready := true, rspValid := true, flight := none, offer := none, write := none } }

/-- An engine with no event to take holds its state (60_exceptions.md R212; log 1). -/
def Obligations.IdleEngineHoldsItsState : Prop :=
  ∀ s : State, s.inputs = [] → step s = .next s

/-- Whatever a host event that is not a reset does to the engine's registers, it does by running whole commands, one after
another in the order of acceptance, with nothing interleaved (20_memory.md R53, R60, R66). The events are the model's (log 1), and
so is which of them answer a command in flight or accept a CMD write that waits (logs 9, 11, 14: DESIGN CHOICE). -/
def Obligations.EventsActByWholeCommands : Prop :=
  ∀ (base : Word) (e : HostEvent) (s t : State), (∀ p : Pins, e = .edge p → p.rst = false) → handle base e s = .next t →
    runCommands (answeredBy e s) (engineOnly s) = .next (engineOnly t)

/-! ### The commands -/

/-- 43_commands.md R161: NOP is the word 0 with any DATA, is accepted in every phase, and only clears RDATA. -/
def Obligations.NopOnlyClearsRData : Prop :=
  (∀ data : Word, decode 0x00000000#32 data = .ok .nop) ∧
  (∀ (cmd data : Word) (s : State), opField cmd = 0#4 → cmd.extractLsb' 0 28 ≠ 0#28 →
    runCommand cmd data s = .next (raiseError .illegal s)) ∧
  ∀ s : State, exec .nop s = .next { s with rdata := 0#32 } ∧ statusWord { s with rdata := 0#32 } = statusWord s

/-- 43_commands.md R162: INIT loads IV[V], selects the variant, empties the counters, opens a computation and clears the error
record, in every phase; a reserved V is ILLEGAL and does not clear ERR. BUF is not cleared (R162); that each of its bytes, all
beyond BUFLEN then, is as before is the model's choice (log 7, DESIGN CHOICE, unsafe). -/
def Obligations.InitLoadsTheIvAndOpens : Prop :=
  (∀ (v : BitVec 2) (data : Word), v = 0#2 ∨ v = 1#2 →
    decode (0x10000000#32 ||| v.zeroExtend 32) data = .ok (.init v)) ∧
  (∀ s : State, exec (.init 0#2) s = .next
    { s with
      h := #v[0x6a09e667#32, 0xbb67ae85#32, 0x3c6ef372#32, 0xa54ff53a#32,
        0x510e527f#32, 0x9b05688c#32, 0x1f83d9ab#32, 0x5be0cd19#32]
      var := .sha256, bufLen := 0, byteCnt := 0#64, phase := .absorb, err := false, ecode := .none, rdata := 0#32 }) ∧
  (∀ s : State, exec (.init 1#2) s = .next
    { s with
      h := #v[0xc1059ed8#32, 0x367cd507#32, 0x3070dd17#32, 0xf70e5939#32,
        0xffc00b31#32, 0x68581511#32, 0x64f98fa7#32, 0xbefa4fa4#32]
      var := .sha224, bufLen := 0, byteCnt := 0#64, phase := .absorb, err := false, ecode := .none, rdata := 0#32 }) ∧
  (∀ (v : BitVec 2) (s t : State), v = 0#2 ∨ v = 1#2 → s.port.flight = none → exec (.init v) s = .next t →
    statusWord t = 1#32 ||| v.zeroExtend 32 <<< 2) ∧
  ∀ (cmd data : Word) (s : State), opField cmd = 1#4 → cmd.extractLsb' 1 27 ≠ 0#27 →
    runCommand cmd data s = .next (raiseError .illegal s) ∧ (raiseError .illegal s).err = true

/-- 30_encoding.md R84: V = 0 selects SHA-256, V = 1 SHA-224; an INIT with V = 2 or 3 is ILLEGAL and has no other effect, as a
word and as a command. -/
def Obligations.ReservedVariantsAreIllegal : Prop :=
  variantOf 0#2 = some .sha256 ∧ variantOf 1#2 = some .sha224 ∧
  ∀ (v : BitVec 2) (data : Word) (s : State), v = 2#2 ∨ v = 3#2 →
    runCommand (0x10000000#32 ||| v.zeroExtend 32) data s = .next (raiseError .illegal s) ∧
    exec (.init v) s = .next (raiseError .illegal s)

/-- 43_commands.md R163: the encoding, the two errors, and the effect. In ABSORB, UPDATE N appends the first N lanes of DATA to
the residual in lane order. If the block fills, it is compressed into H, BYTECNT counts 64 more, and the bytes left over are the new residual; otherwise only the
buffer changes. Nothing else changes but RDATA, which is 0. -/
def Obligations.UpdateAbsorbsItsLanes : Prop :=
  (∀ (n : BitVec 2) (data : Word), decode (0x20000000#32 ||| n.zeroExtend 32) data = .ok (.update n data)) ∧
  (∀ (cmd data : Word) (s : State), opField cmd = 2#4 → cmd.extractLsb' 2 26 ≠ 0#26 →
    runCommand cmd data s = .next (raiseError .illegal s)) ∧
  (∀ (n : BitVec 2) (data : Word) (s : State), s.phase ≠ .absorb →
    exec (.update n data) s = .next (raiseError .state s)) ∧
  (∀ (n : BitVec 2) (data : Word) (s : State), s.phase = .absorb → s.bufLen.val ≤ 63 →
    ∃ t, exec (.update n data) s = .next t ∧
      (s.bufLen.val + byteCount n < 64 →
        liveResidual t = liveResidual s ++ laneBytes n data ∧ t.bufLen.val = s.bufLen.val + byteCount n ∧
        t.h = s.h ∧ t.byteCnt = s.byteCnt ∧ t.dp = s.dp) ∧
      (64 ≤ s.bufLen.val + byteCount n →
        liveResidual t = (liveResidual s ++ laneBytes n data).drop 64 ∧ t.bufLen.val = s.bufLen.val + byteCount n - 64 ∧
        t.h = compressTable s.h ((liveResidual s ++ laneBytes n data).take 64) ∧ t.byteCnt = s.byteCnt + 64#64) ∧
      t = { s with h := t.h, buf := t.buf, bufLen := t.bufLen, byteCnt := t.byteCnt, dp := t.dp, rdata := 0#32 }) ∧
  ∀ s : State, s.port.flight = none →
    ∃ t, andThen (exec (.init 0#2) s) (exec (.update 2#2 0x61626300#32)) = .next t ∧
      liveResidual t = [0x61#8, 0x62#8, 0x63#8] ∧ statusWord t = 0x00000301#32

/-- The bytes of BUF that UPDATE stores, from BUF[BUFLEN] on modulo 64, and that every other byte of BUF is as before
(43_commands.md R163, R164; 20_memory.md R54). Of the bytes at or past the new BUFLEN the spec says nothing (10_state.md R24,
93_implementation_defined.md U4): that they keep what was stored there, the lanes left in a block that filled among them, is the
model's choice (log 7, DESIGN CHOICE, unsafe). -/
def Obligations.UpdateStoresOnlyItsBytes : Prop :=
  ∀ (n : BitVec 2) (data : Word) (s : State), s.phase = .absorb → s.bufLen.val ≤ 63 →
    ∃ t, exec (.update n data) s = .next t ∧
      (∀ k < byteCount n, t.buf.toList[(s.bufLen.val + k) % 64]? = some (laneByte data k)) ∧
      ∀ j < 64, (∀ k < byteCount n, j ≠ (s.bufLen.val + k) % 64) → t.buf.toList[j]? = s.buf.toList[j]?

/-- 43_commands.md R168: the phase table. A decoded command that the phase does not accept is rejected with STATE, and one that
it accepts is not. -/
def Obligations.PhaseTableDecidesAcceptance : Prop :=
  (∀ (n : BitVec 2) (data : Word) (s : State), s.phase ≠ .absorb →
    exec (.update n data) s = .next (raiseError .state s)) ∧
  (∀ s : State, s.phase ≠ .absorb → exec .finish s = .next (raiseError .state s)) ∧
  (∀ (i : BitVec 3) (s : State), s.phase ≠ .done → exec (.read i) s = .next (raiseError .state s)) ∧
  (∀ s : State, exec .nop s = .next { s with rdata := 0#32 }) ∧
  (∀ (v : BitVec 2) (s : State), v = 0#2 ∨ v = 1#2 →
    ∃ t, exec (.init v) s = .next t ∧ t.phase = .absorb ∧ t.err = false) ∧
  (∀ (n : BitVec 2) (data : Word) (s : State), s.phase = .absorb → s.bufLen.val ≤ 63 →
    ∃ t, exec (.update n data) s = .next t ∧ t.phase = .absorb ∧ t.err = s.err ∧ t.ecode = s.ecode) ∧
  (∀ s : State, s.phase = .absorb → s.bufLen.val ≤ 63 →
    ∃ t, exec .finish s = .next t ∧ t.phase = .done ∧ t.err = s.err ∧ t.ecode = s.ecode) ∧
  (∀ (i : BitVec 3) (s : State), s.phase = .done → i.toNat < nw s.var →
    ∃ t, exec (.read i) s = .next t ∧ t.phase = .done ∧ t.err = s.err ∧ t.ecode = s.ecode) ∧
  ∀ (i : BitVec 3) (s : State), s.phase = .done → nw s.var ≤ i.toNat → exec (.read i) s = .next (raiseError .range s)

/-- 42_padder.md R147 and 43_commands.md R170: the encoding, the two errors, and the effect. In ABSORB, FINISH compresses the
padding of the live residual (edge case A with two blocks, edge case B with one), closes the computation, and leaves everything
else, BYTECNT too (10_state.md R26), as it was. Of BUF, whose bytes are all beyond BUFLEN then, the spec says nothing (R24,
93_implementation_defined.md U4): that it is as before is the model's choice (log 7, DESIGN CHOICE, unsafe). -/
def Obligations.FinishCompressesThePadding : Prop :=
  (∀ data : Word, decode 0x30000000#32 data = .ok .finish) ∧
  (∀ (cmd data : Word) (s : State), opField cmd = 3#4 → cmd.extractLsb' 0 28 ≠ 0#28 →
    runCommand cmd data s = .next (raiseError .illegal s)) ∧
  (∀ s : State, s.phase ≠ .absorb → exec .finish s = .next (raiseError .state s)) ∧
  (∀ s : State, s.phase = .absorb → s.bufLen.val ≤ 63 →
    ∃ t, exec .finish s = .next t ∧
      (56 < s.bufLen.val + 1 →
        t.h = compressTable
          (compressTable s.h (s.buf.toList.take s.bufLen.val ++ [0x80#8] ++ zeros (63 - s.bufLen.val)))
          (zeros 56 ++ bytes64 (8#64 * (s.byteCnt + BitVec.ofNat 64 s.bufLen.val)))) ∧
      (s.bufLen.val + 1 ≤ 56 →
        t.h = compressTable s.h
          ((s.buf.toList.take s.bufLen.val ++ [0x80#8] ++ zeros (63 - s.bufLen.val)).take 56
            ++ bytes64 (8#64 * (s.byteCnt + BitVec.ofNat 64 s.bufLen.val)))) ∧
      t = { s with h := t.h, dp := t.dp, bufLen := 0, phase := .done, rdata := 0#32 }) ∧
  ∃ t, andThen (andThen (exec (.init 0#2) State.reset) (exec (.update 2#2 0x61626300#32))) (exec .finish) = .next t ∧
    t.h = #v[0xba7816bf#32, 0x8f01cfea#32, 0x414140de#32, 0x5dae2223#32,
      0xb00361a3#32, 0x96177a9c#32, 0xb410ff61#32, 0xf20015ad#32] ∧
    statusWord t = 0x00000002#32

/-- 43_commands.md R175: in DONE, READ I returns H[I] for I < NW, and its bytes are digest bytes 4I to 4I+3; READ 7 of a SHA-224
digest is RANGE and READ outside DONE is STATE, both with RDATA = 0; nothing but RDATA changes when it succeeds. -/
def Obligations.ReadReturnsADigestWord : Prop :=
  (∀ (i : BitVec 3) (data : Word), decode (0x40000000#32 ||| i.zeroExtend 32) data = .ok (.read i)) ∧
  (∀ (i : BitVec 3) (s : State), s.phase = .done → i.toNat < nw s.var →
    exec (.read i) s = .next { s with rdata := s.h[i.toNat]'i.isLt } ∧
    bytes32 (s.h[i.toNat]'i.isLt) = ((serialize s.var s.h).drop (4 * i.toNat)).take 4 ∧
    statusWord { s with rdata := s.h[i.toNat]'i.isLt } = statusWord s) ∧
  (∀ s : State, s.phase = .done → s.var = .sha224 →
    exec (.read 7#3) s = .next { s with ecode := if s.err = true then s.ecode else .range, err := true, rdata := 0#32 }) ∧
  (∀ (i : BitVec 3) (s : State), s.phase ≠ .done →
    exec (.read i) s = .next { s with ecode := if s.err = true then s.ecode else .state, err := true, rdata := 0#32 }) ∧
  ∀ (cmd data : Word) (s : State), opField cmd = 4#4 → cmd.extractLsb' 3 25 ≠ 0#25 →
    runCommand cmd data s = .next (raiseError .illegal s)

/-- 43_commands.md R176: READ writes only RDATA, so after any READs, in any order, the words are still the same (READs that are
rejected also leave their error record). -/
def Obligations.ReadsAreIdempotent : Prop :=
  ∀ (l : List (BitVec 3)) (s : State), s.phase = .done →
    ∃ t, readAll l s = .next t ∧
      t = { s with rdata := t.rdata, err := t.err, ecode := t.ecode } ∧
      ((∀ i ∈ l, i.toNat < nw s.var) → t = { s with rdata := t.rdata }) ∧
      ∀ i : BitVec 3, i.toNat < nw s.var → exec (.read i) t = .next { t with rdata := s.h[i.toNat]'i.isLt }

/-! ### Errors -/

/-- 60_exceptions.md R203: a rejected command keeps the first error, sets ERR and RDATA = 0, and changes nothing else. -/
def Obligations.RejectionChangesOnlyTheErrorRecord : Prop :=
  ∀ (cmd data : Word) (s : State) (c : ErrorCode), rejection cmd data s = some c →
    runCommand cmd data s = .next { s with ecode := if s.err = true then s.ecode else c, err := true, rdata := 0#32 }

/-- A command that nothing rejects leaves the error record, unless it is INIT, which clears it (43_commands.md R160, R162). -/
def Obligations.AcceptedCommandKeepsTheErrorRecord : Prop :=
  ∀ (cmd data : Word) (s : State), s.bufLen.val ≤ 63 → rejection cmd data s = none →
    ∃ t, runCommand cmd data s = .next t ∧
      ((∀ v, decode cmd data ≠ .ok (.init v)) → t.err = s.err ∧ t.ecode = s.ecode) ∧
      ((∃ v, decode cmd data = .ok (.init v)) → t.err = false ∧ t.ecode = .none)

/-- 60_exceptions.md R205: ILLEGAL comes before STATE and STATE before RANGE, and a reset before any command. The reset clause
is of a host that keeps what it presents, at reset edges too (70_reset_and_hazards.md R235 against R231; log 10, DEDUCED), and is
the one master (R236; log 20). -/
def Obligations.ErrorsHaveAPriority : Prop :=
  (∀ (cmd data : Word) (s : State), (∀ i, decode cmd data ≠ .ok i) →
    runCommand cmd data s = .next (raiseError .illegal s)) ∧
  (∀ (cmd data : Word) (s : State) (i : Instr), decode cmd data = .ok i → accepts i s.phase = false →
    runCommand cmd data s = .next (raiseError .state s)) ∧
  (∀ (cmd data : Word) (s : State) (i : BitVec 3), decode cmd data = .ok (.read i) → accepts (.read i) s.phase = true →
    nw s.var ≤ i.toNat → runCommand cmd data s = .next (raiseError .range s)) ∧
  (∀ (data : Word) (s : State), runCommand 0x4000000F#32 data s = .next (raiseError .illegal s)) ∧
  (∀ (data : Word) (s : State), s.phase = .absorb → runCommand 0x40000007#32 data s = .next (raiseError .state s)) ∧
  (∀ (data : Word) (s : State), s.phase = .done → s.var = .sha224 →
    runCommand 0x40000007#32 data s = .next (raiseError .range s)) ∧
  ∀ (p : Pins) (s : State), p.rst = true → edgeRefusal p s = none →
    clockEdge p s = .next (resetEngine p s)

/-- 60_exceptions.md R207: while ERR = 1 a rejected command changes only RDATA. -/
def Obligations.LaterErrorsKeepTheFirstCode : Prop :=
  ∀ (cmd data : Word) (s : State) (c : ErrorCode), s.err = true → rejection cmd data s = some c →
    runCommand cmd data s = .next { s with rdata := 0#32 }

/-- 60_exceptions.md R206: while ERR = 1, among the commands only a successful INIT clears ERR and ECODE, and with it a new
computation is open; every other command, an ILLEGAL INIT too, keeps both; a reset clears them too. -/
def Obligations.ErrorRecordClearsByInitOrReset : Prop :=
  (∀ (cmd data : Word) (s t : State), s.err = true → runCommand cmd data s = .next t →
    (t.err = false ↔ ∃ v var, decode cmd data = .ok (.init v) ∧ variantOf v = some var) ∧
    (t.err = false → t.ecode = .none ∧ t.phase = .absorb ∧ t.bufLen.val = 0 ∧ t.byteCnt = 0#64 ∧ t.h = ivTable t.var) ∧
    ((∀ v var, decode cmd data = .ok (.init v) → variantOf v ≠ some var) → t.err = true ∧ t.ecode = s.ecode)) ∧
  ∀ (p : Pins) (s : State), (resetEngine p s).err = false ∧ (resetEngine p s).ecode = .none

/-- 10_state.md R23: INIT in any phase enters ABSORB, FINISH in ABSORB enters DONE, a reset enters IDLE, no other command changes
PHASE, nor does an event that answers none (events: log 1), and STATUS never shows 11. -/
def Obligations.PhaseTransitions : Prop :=
  (∀ (cmd data : Word) (s t : State), runCommand cmd data s = .next t →
    ((∃ v, decode cmd data = .ok (.init v)) → t.phase = .absorb) ∧
    (decode cmd data = .ok .finish → s.phase = .absorb → t.phase = .done) ∧
    ((∀ v, decode cmd data ≠ .ok (.init v)) → ¬(decode cmd data = .ok .finish ∧ s.phase = .absorb) →
      t.phase = s.phase)) ∧
  (∀ (p : Pins) (s : State), (resetEngine p s).phase = .idle) ∧
  (∀ (base : Word) (e : HostEvent) (s t : State), (∀ p : Pins, e = .edge p → p.rst = false) → answeredBy e s = [] →
    handle base e s = .next t → t.phase = s.phase) ∧
  ∀ s : State, (statusWord s).extractLsb' 0 2 ≠ 0b11#2

/-- 43_commands.md R171: in DONE, a host event that answers no INIT and is no reset leaves H and DONE (events: log 1). -/
def Obligations.DigestIsHeldUntilInitOrReset : Prop :=
  ∀ (base : Word) (e : HostEvent) (s t : State), s.phase = .done → (∀ p : Pins, e = .edge p → p.rst = false) →
    (∀ x ∈ answeredBy e s, ∀ v, decode x.cmd x.data ≠ .ok (.init v)) →
    handle base e s = .next t → t.h = s.h ∧ t.phase = .done

/-! ### Invariants -/

/-- The reset state meets the invariant of the registers (70_reset_and_hazards.md R230; BYTECNT = 0 is the model's choice,
log 2). -/
def Obligations.ResetMeetsTheInvariant : Prop := State.reset.Inv

/-- Every step keeps the invariant of the registers (10_state.md R25, R28; 43_commands.md R165; 20_memory.md R51, R52). That
BYTECNT is a multiple of 64 after a reset edge rests on the model's choice of 0 there (logs 2 and 3, DESIGN CHOICE), since the
spec leaves BYTECNT open until INIT; that rsp_valid comes with cmd_ready rests on the model's convention for the edges (log 9,
DESIGN CHOICE); one master on the port: R236, with both on it by log 20 (DESIGN CHOICE). -/
def Obligations.EveryStepKeepsTheInvariant : Prop :=
  ∀ s t : State, s.Inv → step s = .next t → t.Inv

/-- Every accepted command completes, whatever its words (70_reset_and_hazards.md R245, 42_padder.md R153, 43_commands.md R166):
no fault and no refusal. -/
def Obligations.EveryAcceptedCommandCompletes : Prop :=
  ∀ (cmd data : Word) (s : State), s.Inv → ∃ t, runCommand cmd data s = .next t ∧ t.Inv

/-- 40_compression.md R114, 60_exceptions.md R208: a shorter block is the LEN assertion, a fault with no next state, and no run
from a state that meets the invariant ever faults, with LEN or otherwise (the model's other fault: log 4). -/
def Obligations.NoRunFaults : Prop :=
  (∀ (block : List Byte) (s : State), block.length < 64 → compress block s = .fault .len) ∧
  ∀ (n : Nat) (s : State) (x : Fault), s.Inv → Host.Core.run Sys2Proof.core n s ≠ .fault x

/-! ### STATUS and reset -/

/-- 10_state.md R33: the fields of STATUS; BUSY is 0 when no command is in flight; bits 31:15 are 0. -/
def Obligations.StatusFields : Prop :=
  ∀ s : State, s.bufLen.val ≤ 63 →
    (statusWord s).extractLsb' 0 2 = phaseCode s.phase ∧
    (statusWord s).getLsbD 2 = decide (s.var = .sha224) ∧
    (statusWord s).getLsbD 3 = s.err ∧
    (statusWord s).extractLsb' 4 4 = errorNumber s.ecode ∧
    ((statusWord s).extractLsb' 8 6).toNat = s.bufLen.val ∧
    (statusWord s).getLsbD 14 = s.port.flight.isSome ∧
    (statusWord s).extractLsb' 15 17 = 0#17 ∧
    (s.port.flight = none →
      statusWord s = (phaseCode s.phase).zeroExtend 32 ||| (variantCode s.var).zeroExtend 32 <<< 2
        ||| (BitVec.ofBool s.err).zeroExtend 32 <<< 3 ||| (errorNumber s.ecode).zeroExtend 32 <<< 4
        ||| BitVec.ofNat 32 s.bufLen.val <<< 8)

/-- 70_reset_and_hazards.md R230, R231: an edge with rst = 1 sets the control fields, abandons a command in flight and accepts
none; nothing of what the engine was doing shows in the state after it; the first edge with rst = 0 makes cmd_ready 1. The host
keeps what it presents, at these edges too (R235; log 10, DEDUCED), and a CMD write on the bus still waits (20_memory.md R65; log 14,
DEDUCED). That the host's events and the count of latencies stay is the model's
choice (log 3); the two states compared have the same of both (log 8, DESIGN CHOICE, of the latencies unsafe). -/
def Obligations.ResetEdgeClearsTheEngine : Prop :=
  ∀ (p : Pins) (s : State), p.rst = true → edgeRefusal p s = none → ∃ t, clockEdge p s = .next t ∧
    t.phase = .idle ∧ t.var = .sha256 ∧ t.err = false ∧ t.ecode = .none ∧ t.bufLen = 0 ∧ t.rdata = 0#32 ∧
    t.port.ready = false ∧ t.port.rspValid = false ∧ t.port.flight = none ∧ t.port.offer = offerOf p ∧
    t.port.write = s.port.write ∧ t.busData = 0#32 ∧
    (∀ s' : State, s'.inputs = s.inputs → s'.draws = s.draws → s'.port.write = s.port.write → edgeRefusal p s' = none →
      ∃ t', clockEdge p s' = .next t' ∧ SameView t t') ∧
    ∀ q : Pins, q.rst = false → edgeRefusal q t = none →
      ∃ u, clockEdge q t = .next u ∧ u.port.ready = true ∧ u.port.flight = none ∧ u.phase = .idle ∧ u.rdata = 0#32

/-! ### The algorithm -/

/-- 40_compression.md R100: bit i of rotr(n, x) is bit (i + n) mod 32 of x; 0 and all ones are fixed; the examples. -/
def Obligations.RotationMovesBits : Prop :=
  (∀ (n : Nat) (x : Word), 1 ≤ n → n ≤ 31 →
    (rotr n x).toNat = x.toNat / 2 ^ n ||| x.toNat * 2 ^ (32 - n) % 2 ^ 32 ∧
    ∀ i < 32, (rotr n x).getLsbD i = x.getLsbD ((i + n) % 32)) ∧
  (∀ n : Nat, 1 ≤ n → n ≤ 31 → rotr n 0#32 = 0#32 ∧ rotr n 0xFFFFFFFF#32 = 0xFFFFFFFF#32) ∧
  rotr 8 0x12345678#32 = 0x78123456#32 ∧ rotr 1 0x00000001#32 = 0x80000000#32

/-- 40_compression.md R104, R105: Ch chooses bit by bit and Maj takes the majority; the corner cases and the examples. -/
def Obligations.ChoiceAndMajority : Prop :=
  (∀ x y z : Word, ch x y z = (x &&& y) ^^^ (~~~x &&& z) ∧
    ∀ i < 32, (ch x y z).getLsbD i = if x.getLsbD i = true then y.getLsbD i else z.getLsbD i) ∧
  (∀ y z : Word, ch 0xFFFFFFFF#32 y z = y ∧ ch 0#32 y z = z) ∧
  (∀ x y : Word, ch x y y = y) ∧
  ch 0x510e527f#32 0x9b05688c#32 0x1f83d9ab#32 = 0x1f85c98c#32 ∧ ch 0xf0f0f0f0#32 0xffffffff#32 0#32 = 0xf0f0f0f0#32 ∧
  (∀ x y z : Word, maj x y z = (x &&& y) ^^^ (x &&& z) ^^^ (y &&& z) ∧
    ∀ i < 32, (maj x y z).getLsbD i =
      decide (2 ≤ (x.getLsbD i).toNat + (y.getLsbD i).toNat + (z.getLsbD i).toNat)) ∧
  (∀ x z : Word, maj x x z = x) ∧
  maj 0xFFFFFFFF#32 0#32 0#32 = 0#32 ∧ maj 0xFFFFFFFF#32 0xFFFFFFFF#32 0#32 = 0xFFFFFFFF#32 ∧
  maj 0x6a09e667#32 0xbb67ae85#32 0x3c6ef372#32 = 0x3a6fe667#32

/-- 40_compression.md R101, R102, R103 and 41_scheduler.md R130, R131: the four sigma functions, their corner cases and examples. -/
def Obligations.SigmaFunctions : Prop :=
  (∀ x : Word, bigSigma0 x = rotr 2 x ^^^ rotr 13 x ^^^ rotr 22 x ∧
    bigSigma1 x = rotr 6 x ^^^ rotr 11 x ^^^ rotr 25 x ∧
    smallSigma0 x = rotr 7 x ^^^ rotr 18 x ^^^ shr 3 x ∧
    smallSigma1 x = rotr 17 x ^^^ rotr 19 x ^^^ shr 10 x ∧
    (shr 3 x).toNat = x.toNat / 2 ^ 3 ∧ (shr 10 x).toNat = x.toNat / 2 ^ 10 ∧
    (shr 3 x).extractLsb' 29 3 = 0#3 ∧ (shr 10 x).extractLsb' 22 10 = 0#10) ∧
  shr 3 0x80000000#32 = 0x10000000#32 ∧ shr 10 0xFFFFFFFF#32 = 0x003FFFFF#32 ∧
  bigSigma0 0#32 = 0#32 ∧ bigSigma0 0xFFFFFFFF#32 = 0xFFFFFFFF#32 ∧
  bigSigma0 0x6a09e667#32 = 0xce20b47e#32 ∧ bigSigma0 0x00000001#32 = 0x40080400#32 ∧
  bigSigma1 0#32 = 0#32 ∧ bigSigma1 0xFFFFFFFF#32 = 0xFFFFFFFF#32 ∧
  bigSigma1 0x510e527f#32 = 0x3587272b#32 ∧ bigSigma1 0x00000001#32 = 0x04200080#32 ∧
  smallSigma0 0#32 = 0#32 ∧ smallSigma0 0xFFFFFFFF#32 = 0x1FFFFFFF#32 ∧
  smallSigma0 0x00000001#32 = 0x02004000#32 ∧ smallSigma0 0x80000000#32 = 0x11002000#32 ∧
  smallSigma1 0#32 = 0#32 ∧ smallSigma1 0xFFFFFFFF#32 = 0x003FFFFF#32 ∧
  smallSigma1 0x00000001#32 = 0x0000a000#32 ∧ smallSigma1 0x80000000#32 = 0x00205000#32

/-- 40_compression.md R106: K[t] is the first 32 bits of the fractional part of the cube root of the (t+1)-th prime. -/
def Obligations.RoundConstantsAreCubeRoots : Prop :=
  ∀ t < 64, ∃ r : Nat, r ^ 3 ≤ Nat.nth Nat.Prime t * 2 ^ 96 ∧ Nat.nth Nat.Prime t * 2 ^ 96 < (r + 1) ^ 3 ∧
    (roundConstant t).toNat = r % 2 ^ 32

/-- 10_state.md R37: IV[0][i] is the first 32 bits of the fractional part of the square root of the (i+1)-th prime, and IV[1][i]
the second 32 bits of that of the (i+9)-th; the spec has them from general knowledge (log 17). -/
def Obligations.InitialHashesAreSquareRoots : Prop :=
  ∀ i : Fin 8,
    (∃ r : Nat, r ^ 2 ≤ Nat.nth Nat.Prime i.val * 2 ^ 64 ∧ Nat.nth Nat.Prime i.val * 2 ^ 64 < (r + 1) ^ 2 ∧
      (ivTable .sha256)[i].toNat = r % 2 ^ 32) ∧
    ∃ r : Nat, r ^ 2 ≤ Nat.nth Nat.Prime (i.val + 8) * 2 ^ 128 ∧ Nat.nth Nat.Prime (i.val + 8) * 2 ^ 128 < (r + 1) ^ 2 ∧
      (ivTable .sha224)[i].toNat = r % 2 ^ 32

/-- 40_compression.md R108, R109, R110: the round step, on the values before the round, and the example of round 0. -/
def Obligations.RoundStepShiftsTheState : Prop :=
  (∀ (t : Nat) (w a b c d e f g h : Word),
    roundStep (roundConstant t) w { a := a, b := b, c := c, d := d, e := e, f := f, g := g, h := h } =
      { a := (h + bigSigma1 e + ch e f g + roundConstant t + w) + (bigSigma0 a + maj a b c)
        b := a, c := b, d := c
        e := d + (h + bigSigma1 e + ch e f g + roundConstant t + w)
        f := e, g := f, h := g }) ∧
  (∀ (k w : Word), k + w = 0#32 →
    roundStep k w { a := 0#32, b := 0#32, c := 0#32, d := 0#32, e := 0#32, f := 0#32, g := 0#32, h := 0#32 } =
      { a := 0#32, b := 0#32, c := 0#32, d := 0#32, e := 0#32, f := 0#32, g := 0#32, h := 0#32 }) ∧
  temp1 (roundConstant 0) 0x61626380#32 (loadWorking (ivTable .sha256)) = 0x54da50e8#32 ∧
  temp2 (loadWorking (ivTable .sha256)) = 0x08909ae5#32 ∧
  roundStep (roundConstant 0) 0x61626380#32 (loadWorking (ivTable .sha256)) =
    { a := 0x5d6aebcd#32, b := 0x6a09e667#32, c := 0xbb67ae85#32, d := 0x3c6ef372#32
      e := 0xfa2a4622#32, f := 0x510e527f#32, g := 0x9b05688c#32, h := 0x1f83d9ab#32 }

/-- 41_scheduler.md R132, R133: the first 16 schedule words are the block's big-endian words, the others follow the recurrence;
an all-zero block gives zeros; the first recurrence words of an all-0xFF block and of the padded block "abc". -/
def Obligations.ScheduleFollowsTheRecurrence : Prop :=
  (∀ (block : List Byte) (t : Nat), t < 16 → scheduleWord block t =
    be32 (block.getD (4 * t) 0) (block.getD (4 * t + 1) 0) (block.getD (4 * t + 2) 0) (block.getD (4 * t + 3) 0)) ∧
  (∀ (block : List Byte) (t : Nat), 16 ≤ t → t ≤ 63 → scheduleWord block t =
    smallSigma1 (scheduleWord block (t - 2)) + scheduleWord block (t - 7)
      + smallSigma0 (scheduleWord block (t - 15)) + scheduleWord block (t - 16)) ∧
  (∀ t < 64, scheduleWord (zeros 64) t = 0#32) ∧
  scheduleWord (List.replicate 64 0xFF#8) 16 = 0x203ffffc#32 ∧
  scheduleWord (List.replicate 64 0xFF#8) 17 = 0x203ffffc#32 ∧
  [0, 14, 15, 16, 17, 18].map (scheduleWord ([0x61#8, 0x62#8, 0x63#8, 0x80#8] ++ zeros 52 ++ bytes64 24#64)) =
    [0x61626380#32, 0x00000000#32, 0x00000018#32, 0x61626380#32, 0x000f0000#32, 0x7da86405#32]

/-- 41_scheduler.md R135: the word that round t takes from the ring is W[t], for every block. -/
def Obligations.RingYieldsTheSchedule : Prop :=
  ∀ (h : HashState) (block : List Byte) (t : Nat), t < 64 → ringWord h block t = scheduleWord block t

/-- 40_compression.md R113: compress is total on 64-byte blocks; its hash state is H plus, word by word, what the 64 rounds over
the full schedule table make of it; it writes only H and the datapath registers, whose round counter ends at 64; the example of
the all-zero block, and that the all-zero hash state does not stay zero. -/
def Obligations.CompressIsTheTableCompression : Prop :=
  (∀ (block : List Byte) (s : State), block.length = 64 →
    ∃ t, compress block s = .next t ∧ t.h = compressTable s.h block ∧
      t.h = feedForward s.h ((List.range 64).foldl
        (fun x r => roundStep (roundConstant r) (scheduleWord block r) x) (loadWorking s.h)) ∧
      t.dp.t.val = 64 ∧ t = { s with h := t.h, dp := t.dp }) ∧
  compressTable (ivTable .sha256) (zeros 64) =
    #v[0xda5698be#32, 0x17b9b469#32, 0x62335799#32, 0x779fbeca#32,
      0x8ce5d491#32, 0xc0d26243#32, 0xbafef9ea#32, 0x1837a9d8#32] ∧
  compressTable (Vector.replicate 8 0#32) (zeros 64) ≠ Vector.replicate 8 0#32

/-- 42_padder.md R143, R144, R145, R146: the padding blocks have 64 bytes each, are two exactly when ℓ is 56 to 63, and spell the
residual, 0x80, zeros and the big-endian length field. -/
def Obligations.PaddingSpellsTheLength : Prop :=
  ∀ (r : List Byte) (bits : BitVec 64), r.length ≤ 63 →
    (∀ b ∈ paddingBlocks r bits, b.length = 64) ∧
    (paddingBlocks r bits).length = (if r.length ≤ 55 then 1 else 2) ∧
    (paddingBlocks r bits).flatten =
      r ++ [0x80#8] ++ zeros (if r.length ≤ 55 then 55 - r.length else 119 - r.length) ++ bytes64 bits

/-- 42_padder.md R151: how many blocks are compressed for a message of L bytes, message and padding together, and the examples. -/
def Obligations.BlocksOfAMessage : Prop :=
  (∀ (m : List Byte) (bits : BitVec 64),
    fullBlocks m + (paddingBlocks (messageResidual m) bits).length = m.length / 64 + (if m.length % 64 ≤ 55 then 1 else 2)) ∧
  (∀ (m : List Byte) (bits : BitVec 64),
    ((List.range (fullBlocks m)).flatMap (messageBlock m)).length + (paddingBlocks (messageResidual m) bits).flatten.length =
      64 * (m.length / 64 + (if m.length % 64 ≤ 55 then 1 else 2))) ∧
  ∀ x ∈ [(0, 1), (55, 1), (56, 2), (63, 2), (64, 2), (119, 2), (120, 3), (1000000, 15626)],
    ∀ (m : List Byte) (bits : BitVec 64), m.length = x.1 →
      fullBlocks m + (paddingBlocks (messageResidual m) bits).length = x.2

/-- 42_padder.md R142: total_bits is (8 · (BYTECNT + ℓ)) mod 2^64, which is 8 · L for a message of L < 2^61 bytes. -/
def Obligations.LengthFieldCountsBits : Prop :=
  (∀ (byteCnt : BitVec 64) (l : Nat), (totalBits byteCnt l).toNat = 8 * (byteCnt.toNat + l) % 2 ^ 64) ∧
  ∀ (v : Variant) (m : List Byte) (s : State), m.length < 2 ^ 61 → Absorbed v m s →
    (totalBits s.byteCnt s.bufLen.val).toNat = 8 * m.length

/-! ### The digest -/

/-- 43_commands.md R165: the absorption invariant. INIT establishes it for the empty message, UPDATE extends the message by its
lanes, every other command that stays in ABSORB without INIT keeps it, and BYTECNT + BUFLEN is the length modulo 2^64. -/
def Obligations.AbsorptionInvariant : Prop :=
  (∀ (v : BitVec 2) (var : Variant) (s : State), variantOf v = some var →
    ∃ t, exec (.init v) s = .next t ∧ Absorbed var [] t) ∧
  (∀ (v : Variant) (m : List Byte) (n : BitVec 2) (data : Word) (s : State), Absorbed v m s →
    ∃ t, exec (.update n data) s = .next t ∧ Absorbed v (m ++ laneBytes n data) t) ∧
  (∀ (v : Variant) (m : List Byte) (cmd data : Word) (s t : State), Absorbed v m s →
    (∀ n d, decode cmd data ≠ .ok (.update n d)) → (∀ x, decode cmd data ≠ .ok (.init x)) →
    runCommand cmd data s = .next t → t.phase = .absorb → Absorbed v m t) ∧
  ∀ (v : Variant) (m : List Byte) (s : State), Absorbed v m s →
    s.bufLen.val ≤ 63 ∧ s.byteCnt + BitVec.ofNat 64 s.bufLen.val = BitVec.ofNat 64 m.length

/-- FINISH leaves the digest of the absorbed message in H (42_padder.md R150, 43_commands.md R170). -/
def Obligations.FinishLeavesTheDigest : Prop :=
  ∀ (v : Variant) (m : List Byte) (s : State), Absorbed v m s →
    ∃ t, exec .finish s = .next t ∧ t.phase = .done ∧ t.var = v ∧ t.h = digestHash v m ∧
      ∀ i : BitVec 3, i.toNat < nw v → ∃ u, exec (.read i) t = .next u ∧
        bytes32 u.rdata = ((digest v m).drop (4 * i.toNat)).take 4

/-- 42_padder.md R152: two lists of UPDATEs that carry the same bytes leave the same state but for RDATA, so the same digest.
That BUF from BUFLEN on and the datapath registers are the same too rests on the model's choices for them (logs 6, 7: DESIGN
CHOICE, unsafe). -/
def Obligations.ChunkingDoesNotMatter : Prop :=
  ∀ (l l' : List (BitVec 2 × Word)) (s : State), s.phase = .absorb → s.bufLen.val ≤ 63 →
    updateBytes l = updateBytes l' →
    ∃ t t', updateAll l s = .next t ∧ updateAll l' s = .next t' ∧ { t with rdata := 0#32 } = { t' with rdata := 0#32 }

/-- 30_encoding.md R92, R93: the words that each line of a script issues; lines are the model's data (log 18). -/
def Obligations.ScriptLinesAssemble : Prop :=
  assemble .nop = { cmd := 0x00000000#32, data := 0#32 } ∧
  assemble (.init .sha256) = { cmd := 0x10000000#32, data := 0#32 } ∧
  assemble (.init .sha224) = { cmd := 0x10000001#32, data := 0#32 } ∧
  (∀ v : BitVec 2, assemble (.initNumber v) = { cmd := BitVec.ofNat 32 (0x10000000 + v.toNat), data := 0#32 }) ∧
  (∀ (n : BitVec 2) (data : Word),
    assemble (.update n data) = { cmd := BitVec.ofNat 32 (0x20000000 + n.toNat), data := data }) ∧
  assemble .finish = { cmd := 0x30000000#32, data := 0#32 } ∧
  (∀ i : BitVec 3, assemble (.read i) = { cmd := BitVec.ofNat 32 (0x40000000 + i.toNat), data := 0#32 }) ∧
  (∀ w : Word, assemble (.raw w) = { cmd := w, data := 0#32 }) ∧
  ∀ b : Byte, assemble (updateByteLine b) = { cmd := 0x20000000#32, data := b.zeroExtend 32 <<< 24 }

/-- 30_encoding.md R93, 42_padder.md R150: from any state with a free port, the script DIGEST computes digest_v(M): after INIT,
the UPDATEs, FINISH and READ 0 to READ I, RDATA holds digest bytes 4I to 4I+3. The host's list of events is the model's (log 1). -/
def Obligations.DigestScriptComputesTheDigest : Prop :=
  ∀ (v : Variant) (m : List Byte) (s : State) (rest : List HostEvent) (i : Nat),
    s.port.flight = none → s.port.offer = none → s.port.write = none → i < nw v →
    s.inputs = scriptEvents (digestScript v m) ++ rest →
    ∃ t, Host.Core.run Sys2Proof.core (1 + (absorbScript m).length + 1 + (i + 1)) s = .next t ∧
      t.phase = .done ∧ t.err = false ∧ bytes32 t.rdata = ((digest v m).drop (4 * i)).take 4

/-! ### What a host can tell -/

/-- Two states that differ only in registers no later response depends on take steps that differ only there, and show the same
STATUS and RDATA: BUF beyond BUFLEN, the datapath registers, BYTECNT and H where they are not open to the host, and H[7] of a
SHA-224 digest never leak (10_state.md R24, R39; 42_padder.md R148; 43_commands.md R175). The two runs have the same host events
and the same free latencies (logs 1, 8: DESIGN CHOICE, and of the latencies unsafe: 70_reset_and_hazards.md R246 lets them depend
on the data). -/
def Obligations.HiddenRegistersNeverLeak : Prop :=
  ∀ s t : State, SameView s t →
    SameAnswer (step s) (step t) ∧ statusWord s = statusWord t ∧ s.rdata = t.rdata

/-- 70_reset_and_hazards.md R232: after reset STATUS and RDATA are 0, and whatever values the registers hold that reset does not
initialise, every run shows the same STATUS and RDATA. The two runs have the same host events and the same free latencies (logs 1,
8: DESIGN CHOICE, and of the latencies unsafe). -/
def Obligations.ResetLeftoversAreUnobservable : Prop :=
  statusWord State.reset = 0#32 ∧ State.reset.rdata = 0#32 ∧
  ∀ (h : HashState) (buf : Vector Byte 64) (byteCnt : BitVec 64) (dp : Datapath) (events : List HostEvent) (n : Nat),
    SameAnswer
      (Host.Core.run Sys2Proof.core n { State.reset with inputs := events })
      (Host.Core.run Sys2Proof.core n
        { State.reset with h := h, buf := buf, byteCnt := byteCnt, dp := dp, inputs := events })

/-- No state of an earlier computation survives an INIT (42_padder.md R154). The two states have the same events to come and the same
free latencies (logs 1, 8: DESIGN CHOICE, and of the latencies unsafe). -/
def Obligations.InitForgetsTheEarlierComputation : Prop :=
  ∀ (v : BitVec 2) (s t : State), v = 0#2 ∨ v = 1#2 → s.port = t.port →
    s.busData = t.busData → s.busRead = t.busRead → s.inputs = t.inputs → s.draws = t.draws →
    SameAnswer (exec (.init v) s) (exec (.init v) t)

/-! ### The command port and the bus wrapper -/

/-- 20_memory.md R51, R52, R65: a command, of the host or of a CMD write, is accepted at an edge with rst = 0, cmd_valid = 1 and
cmd_ready = 1, its words are sampled there, and then cmd_ready is 0 and BUSY 1; at any other edge of an idle port cmd_ready becomes
1; while a command still executes the port stays busy and accepts nothing. RDATA, the engine's registers and the other STATUS
fields do not change. At which edge an output changes is the model's convention (log 9), the CMD write is on the bus beside the pins
(log 20), and how long the command executes is a free value (log 8). -/
def Obligations.CommandIsAcceptedWhenReady : Prop :=
  (∀ (p : Pins) (s : State), p.rst = false → edgeRefusal p s = none → s.port.flight = none →
    ∃ t, clockEdge p s = .next t ∧ t.port.rspValid = false ∧ engineOnly t = engineOnly s ∧
      (∀ x, presented p s = some x → s.port.ready = true →
        t.port.ready = false ∧ inFlight t = [x] ∧ statusWord t = statusWord s ||| 0x4000#32) ∧
      (¬(presented p s ≠ none ∧ s.port.ready = true) →
        t.port.ready = true ∧ t.port.flight = none ∧ statusWord t = statusWord s)) ∧
  ∀ (p : Pins) (s : State) (f : Flight), p.rst = false → edgeRefusal p s = none →
    s.port.flight = some f → f.wait ≠ 0 →
    ∃ t, clockEdge p s = .next t ∧ t.port.rspValid = false ∧ t.port.ready = false ∧ inFlight t = inFlight s ∧
      engineOnly t = engineOnly s ∧ statusWord t = statusWord s

/-- The cycle-level handshake refines the transaction: a command presented at a ready port is answered after a finite number of
edges, at least one, with the very effect of the transaction step; until then BUSY = 1, cmd_ready = 0, and RDATA and the other
STATUS fields are those from before the command (20_memory.md R51, R52, R53, R60; 70_reset_and_hazards.md R245). The number of
edges is the free latency (logs 8, 9); the events, and that the state after a transaction shows the response cycle, are the
model's choice (logs 1, 19: DESIGN CHOICE). -/
def Obligations.HandshakeRefinesTheTransaction : Prop :=
  ∀ (cmd data : Word) (s : State) (rest : List HostEvent),
    s.Inv → s.port.ready = true → s.port.flight = none → s.port.offer = none → s.port.write = none →
    ∃ (k : Nat) (u u' : State), 1 ≤ k ∧
      Host.Core.run Sys2Proof.core (1 + k)
        { s with inputs :=
            .edge { rst := false, cmdValid := true, cmd := cmd, data := data } ::
              List.replicate k (.edge { rst := false, cmdValid := false, cmd := cmd, data := data }) ++ rest } = .next u ∧
      step { s with inputs := .command cmd data :: rest } = .next u' ∧
      u = { u' with draws := s.draws + 1 } ∧
      ∀ j < k, ∃ w, Host.Core.run Sys2Proof.core (1 + j)
        { s with inputs :=
            .edge { rst := false, cmdValid := true, cmd := cmd, data := data } ::
              List.replicate k (.edge { rst := false, cmdValid := false, cmd := cmd, data := data }) ++ rest } = .next w ∧
        w.port.ready = false ∧ w.port.rspValid = false ∧ w.rdata = s.rdata ∧ statusWord w = statusWord s ||| 0x4000#32

/-- 70_reset_and_hazards.md R235: what a host presents at any edge, a reset edge too, it must present unchanged until it is
accepted, and a host that withdraws or changes it before is refused, at any edge. That the hold binds at a reset edge and outlasts
it is the model's inference from R235, against the priority that R231 gives reset (log 10, DEDUCED). -/
def Obligations.ChangedOfferIsRefused : Prop :=
  (∀ (p : Pins) (s : State) (x : Transaction), s.port.offer = some x →
    (p.cmdValid = false ∨ p.cmd ≠ x.cmd ∨ p.data ≠ x.data) → clockEdge p s = .refused .handshakeHold) ∧
  ∀ (p : Pins) (s t : State), clockEdge p s = .next t →
    ((p.rst = false ∧ s.port.flight = none ∧ p.cmdValid = true ∧ s.port.ready = true) → t.port.offer = none) ∧
    (¬(p.rst = false ∧ s.port.flight = none ∧ p.cmdValid = true ∧ s.port.ready = true) → t.port.offer = offerOf p)

/-- 20_memory.md R63: what a read of each register of a wrapper at any base that is a multiple of 4 returns, and what a write of
DATA, STATUS and RDATA does, on a bus on which no CMD write waits (WrapperIssuesTheHeldData says what one does first); the word
read is kept in a field of the model's own (log 13). At any other base no access is naturally aligned (R64; log 12). -/
def Obligations.WrapperRegisters : Prop :=
  (∀ (base value : Word) (s : State), wordAligned base = true → s.port.write = none →
    handle base (.busWrite (wrapperAddr base 0x0#4) .word value) s = .next { s with busData := value } ∧
    handle base (.busWrite (wrapperAddr base 0x8#4) .word value) s = .next s ∧
    handle base (.busWrite (wrapperAddr base 0xC#4) .word value) s = .next s) ∧
  (∀ (base : Word) (s : State), wordAligned base = true → s.port.write = none →
    handle base (.busRead (wrapperAddr base 0x0#4) .word) s = .next { s with busRead := s.busData } ∧
    handle base (.busRead (wrapperAddr base 0x4#4) .word) s = .next { s with busRead := 0#32 } ∧
    handle base (.busRead (wrapperAddr base 0x8#4) .word) s = .next { s with busRead := statusWord s } ∧
    handle base (.busRead (wrapperAddr base 0xC#4) .word) s = .next { s with busRead := s.rdata }) ∧
  State.reset.busData = 0#32 ∧ State.reset.rdata = 0#32

/-- 20_memory.md R65, 70_reset_and_hazards.md R238: a write of CMD presents the written word with the DATA register and changes
nothing else. Every later bus access, at any base that is a multiple of 4, first waits until that command is accepted: the one in
flight is answered, and the write's is then in flight, with BUSY = 1. That the wait takes all the edges it needs inside the later
access is the model's convention (log 14); the alignment of the base (log 12) and that the direct port, beside the wrapper, presents
nothing (log 20) are the model's too: DESIGN CHOICE. -/
def Obligations.WrapperIssuesTheHeldData : Prop :=
  (∀ (base value : Word) (s : State), wordAligned base = true → s.port.write = none → s.port.offer = none →
    handle base (.busWrite (wrapperAddr base 0x4#4) .word value) s =
      .next { s with port := { s.port with write := some { cmd := value, data := s.busData } } }) ∧
  ∀ (base value : Word) (offset : BitVec 4) (s : State) (x : Transaction), wordAligned base = true →
    offset = 0x0#4 ∨ offset = 0x4#4 ∨ offset = 0x8#4 ∨ offset = 0xC#4 → s.Inv → s.port.write = some x →
    ∃ t, t.Inv ∧ runCommands (inFlight s) (engineOnly s) = .next (engineOnly t) ∧
      inFlight t = [x] ∧ (statusWord t).getLsbD 14 = true ∧ t.port.write = none ∧ t.busData = s.busData ∧
      handle base (.busWrite (wrapperAddr base offset) .word value) s =
        handle base (.busWrite (wrapperAddr base offset) .word value) t ∧
      handle base (.busRead (wrapperAddr base offset) .word) s = handle base (.busRead (wrapperAddr base offset) .word) t

/-- 20_memory.md R65 with R51 and 70_reset_and_hazards.md R231: a CMD write waits on the bus, with its words, until an edge with
rst = 0 and cmd_ready = 1 accepts it. An edge before that, a reset edge too, accepts nothing and leaves it waiting; a host that
drives cmd_valid meanwhile is a second master (R236). That the write outlasts a reset, with the DATA word it was made with, is the
model's inference from R65, R231 and R238 (log 14, DEDUCED); that both masters stand on one port is log 20 (DESIGN CHOICE). -/
def Obligations.CmdWriteWaitsForAcceptance : Prop :=
  ∀ (p : Pins) (s : State) (x : Transaction), s.Inv → s.port.write = some x →
    (p.cmdValid = true → clockEdge p s = .refused .twoMasters) ∧
    (p.cmdValid = false → ∃ t, clockEdge p s = .next t ∧
      (p.rst = true → t.port.write = some x ∧ inFlight t = [] ∧ statusWord t = 0#32) ∧
      (p.rst = false → s.port.flight = none → s.port.ready = true →
        t.port.write = none ∧ inFlight t = [x] ∧ t.port.ready = false ∧ engineOnly t = engineOnly s ∧
        statusWord t = statusWord s ||| 0x4000#32) ∧
      (p.rst = false → s.port.flight = none → s.port.ready = false →
        t.port.write = some x ∧ inFlight t = [] ∧ t.port.ready = true ∧ engineOnly t = engineOnly s ∧
        statusWord t = statusWord s) ∧
      (p.rst = false → ∀ f, s.port.flight = some f →
        t.port.write = some x ∧
        (f.wait ≠ 0 → inFlight t = inFlight s ∧ engineOnly t = engineOnly s ∧ t.port.ready = false) ∧
        (f.wait = 0 → inFlight t = [] ∧ t.port.ready = true ∧ t.port.rspValid = true ∧
          runCommand f.cmd f.data (engineOnly s) = .next (engineOnly t))))

/-- 20_memory.md R64: in the window of a wrapper at any base, an access that is narrower than 32 bits, not naturally aligned or
to another offset than the four is refused. That alignment is that of the 32-bit wrapping address, so that every access at a base
that is no multiple of 4 is refused, is the model's choice (log 12, DESIGN CHOICE). -/
def Obligations.UndefinedBusAccessIsRefused : Prop :=
  ∀ (base : Word) (offset : BitVec 4) (size : BusSize) (value : Word) (s : State),
    ¬(size = .word ∧ (wrapperAddr base offset).toNat % 4 = 0 ∧
      (offset = 0x0#4 ∨ offset = 0x4#4 ∨ offset = 0x8#4 ∨ offset = 0xC#4)) →
    handle base (.busWrite (wrapperAddr base offset) size value) s = .refused .busUndefined ∧
    handle base (.busRead (wrapperAddr base offset) size) s = .refused .busUndefined

/-- 20_memory.md R69, 70_reset_and_hazards.md R236: a command to one engine has its effect there and changes no other engine, and
a second host on a port is refused; all engines start in the reset state (60_exceptions.md R213). Which host owns which engine,
and that each engine's wrapper has a base and a bus of its own, is the model's choice (log 16); the last clause, that a CMD write
is refused as a second master while the direct port presents a command, is the model's choice too (log 20), at a base aligned as
log 12 has it. -/
def Obligations.EnginesShareNothing : Prop :=
  (∀ (k : Nat) (e : HostEvent) (p q : Platform), platformIssue k k e p = .next q →
    q.length = p.length ∧ (∀ j, j ≠ k → q[j]? = p[j]?) ∧
    ∃ s t, p[k]? = some s ∧ q[k]? = some t ∧ handle (Config.shaBase k) e s = .next t) ∧
  (∀ k < Config.nEngines, platformReset[k]? = some State.reset) ∧
  (∀ (host k : Nat) (e : HostEvent) (p : Platform), host ≠ k → platformIssue host k e p = .refused .twoMasters) ∧
  ∀ (base value : Word) (s : State) (x : Transaction), wordAligned base = true → s.Inv → s.port.offer = some x →
    handle base (.busWrite (wrapperAddr base 0x4#4) .word value) s = .refused .twoMasters
end

