-- ==== Sys2Proof/Laws/State.lean ====
section
/-! SUPPORT. What each named update of the state leaves in each field: one lemma a field and an update, true by definition. -/

namespace Sys2Proof.Laws

open Sys2Proof.Machine

@[simp] theorem clearRData_h (s : State) :
    (clearRData s).h = s.h := rfl
@[simp] theorem clearRData_var (s : State) :
    (clearRData s).var = s.var := rfl
@[simp] theorem clearRData_phase (s : State) :
    (clearRData s).phase = s.phase := rfl
@[simp] theorem clearRData_buf (s : State) :
    (clearRData s).buf = s.buf := rfl
@[simp] theorem clearRData_bufLen (s : State) :
    (clearRData s).bufLen = s.bufLen := rfl
@[simp] theorem clearRData_byteCnt (s : State) :
    (clearRData s).byteCnt = s.byteCnt := rfl
@[simp] theorem clearRData_err (s : State) :
    (clearRData s).err = s.err := rfl
@[simp] theorem clearRData_ecode (s : State) :
    (clearRData s).ecode = s.ecode := rfl
@[simp] theorem clearRData_rdata (s : State) :
    (clearRData s).rdata = 0 := rfl
@[simp] theorem clearRData_dp (s : State) :
    (clearRData s).dp = s.dp := rfl
@[simp] theorem clearRData_port (s : State) :
    (clearRData s).port = s.port := rfl
@[simp] theorem clearRData_busData (s : State) :
    (clearRData s).busData = s.busData := rfl
@[simp] theorem clearRData_busRead (s : State) :
    (clearRData s).busRead = s.busRead := rfl
@[simp] theorem clearRData_inputs (s : State) :
    (clearRData s).inputs = s.inputs := rfl
@[simp] theorem clearRData_draws (s : State) :
    (clearRData s).draws = s.draws := rfl

@[simp] theorem raiseError_h (c : ErrorCode) (s : State) :
    (raiseError c s).h = s.h := rfl
@[simp] theorem raiseError_var (c : ErrorCode) (s : State) :
    (raiseError c s).var = s.var := rfl
@[simp] theorem raiseError_phase (c : ErrorCode) (s : State) :
    (raiseError c s).phase = s.phase := rfl
@[simp] theorem raiseError_buf (c : ErrorCode) (s : State) :
    (raiseError c s).buf = s.buf := rfl
@[simp] theorem raiseError_bufLen (c : ErrorCode) (s : State) :
    (raiseError c s).bufLen = s.bufLen := rfl
@[simp] theorem raiseError_byteCnt (c : ErrorCode) (s : State) :
    (raiseError c s).byteCnt = s.byteCnt := rfl
@[simp] theorem raiseError_err (c : ErrorCode) (s : State) :
    (raiseError c s).err = true := rfl
@[simp] theorem raiseError_ecode (c : ErrorCode) (s : State) :
    (raiseError c s).ecode = if s.err then s.ecode else c := rfl
@[simp] theorem raiseError_rdata (c : ErrorCode) (s : State) :
    (raiseError c s).rdata = 0 := rfl
@[simp] theorem raiseError_dp (c : ErrorCode) (s : State) :
    (raiseError c s).dp = s.dp := rfl
@[simp] theorem raiseError_port (c : ErrorCode) (s : State) :
    (raiseError c s).port = s.port := rfl
@[simp] theorem raiseError_busData (c : ErrorCode) (s : State) :
    (raiseError c s).busData = s.busData := rfl
@[simp] theorem raiseError_busRead (c : ErrorCode) (s : State) :
    (raiseError c s).busRead = s.busRead := rfl
@[simp] theorem raiseError_inputs (c : ErrorCode) (s : State) :
    (raiseError c s).inputs = s.inputs := rfl
@[simp] theorem raiseError_draws (c : ErrorCode) (s : State) :
    (raiseError c s).draws = s.draws := rfl

@[simp] theorem openDigest_h (v : Variant) (s : State) :
    (openDigest v s).h = ivTable v := rfl
@[simp] theorem openDigest_var (v : Variant) (s : State) :
    (openDigest v s).var = v := rfl
@[simp] theorem openDigest_phase (v : Variant) (s : State) :
    (openDigest v s).phase = .absorb := rfl
@[simp] theorem openDigest_buf (v : Variant) (s : State) :
    (openDigest v s).buf = s.buf := rfl
@[simp] theorem openDigest_bufLen (v : Variant) (s : State) :
    (openDigest v s).bufLen = 0 := rfl
@[simp] theorem openDigest_byteCnt (v : Variant) (s : State) :
    (openDigest v s).byteCnt = 0 := rfl
@[simp] theorem openDigest_err (v : Variant) (s : State) :
    (openDigest v s).err = false := rfl
@[simp] theorem openDigest_ecode (v : Variant) (s : State) :
    (openDigest v s).ecode = .none := rfl
@[simp] theorem openDigest_rdata (v : Variant) (s : State) :
    (openDigest v s).rdata = s.rdata := rfl
@[simp] theorem openDigest_dp (v : Variant) (s : State) :
    (openDigest v s).dp = s.dp := rfl
@[simp] theorem openDigest_port (v : Variant) (s : State) :
    (openDigest v s).port = s.port := rfl
@[simp] theorem openDigest_busData (v : Variant) (s : State) :
    (openDigest v s).busData = s.busData := rfl
@[simp] theorem openDigest_busRead (v : Variant) (s : State) :
    (openDigest v s).busRead = s.busRead := rfl
@[simp] theorem openDigest_inputs (v : Variant) (s : State) :
    (openDigest v s).inputs = s.inputs := rfl
@[simp] theorem openDigest_draws (v : Variant) (s : State) :
    (openDigest v s).draws = s.draws := rfl

@[simp] theorem closeDigest_h (s : State) :
    (closeDigest s).h = s.h := rfl
@[simp] theorem closeDigest_var (s : State) :
    (closeDigest s).var = s.var := rfl
@[simp] theorem closeDigest_phase (s : State) :
    (closeDigest s).phase = .done := rfl
@[simp] theorem closeDigest_buf (s : State) :
    (closeDigest s).buf = s.buf := rfl
@[simp] theorem closeDigest_bufLen (s : State) :
    (closeDigest s).bufLen = 0 := rfl
@[simp] theorem closeDigest_byteCnt (s : State) :
    (closeDigest s).byteCnt = s.byteCnt := rfl
@[simp] theorem closeDigest_err (s : State) :
    (closeDigest s).err = s.err := rfl
@[simp] theorem closeDigest_ecode (s : State) :
    (closeDigest s).ecode = s.ecode := rfl
@[simp] theorem closeDigest_rdata (s : State) :
    (closeDigest s).rdata = s.rdata := rfl
@[simp] theorem closeDigest_dp (s : State) :
    (closeDigest s).dp = s.dp := rfl
@[simp] theorem closeDigest_port (s : State) :
    (closeDigest s).port = s.port := rfl
@[simp] theorem closeDigest_busData (s : State) :
    (closeDigest s).busData = s.busData := rfl
@[simp] theorem closeDigest_busRead (s : State) :
    (closeDigest s).busRead = s.busRead := rfl
@[simp] theorem closeDigest_inputs (s : State) :
    (closeDigest s).inputs = s.inputs := rfl
@[simp] theorem closeDigest_draws (s : State) :
    (closeDigest s).draws = s.draws := rfl

@[simp] theorem emptyBuffer_h (s : State) :
    (emptyBuffer s).h = s.h := rfl
@[simp] theorem emptyBuffer_var (s : State) :
    (emptyBuffer s).var = s.var := rfl
@[simp] theorem emptyBuffer_phase (s : State) :
    (emptyBuffer s).phase = s.phase := rfl
@[simp] theorem emptyBuffer_buf (s : State) :
    (emptyBuffer s).buf = s.buf := rfl
@[simp] theorem emptyBuffer_bufLen (s : State) :
    (emptyBuffer s).bufLen = 0 := rfl
@[simp] theorem emptyBuffer_byteCnt (s : State) :
    (emptyBuffer s).byteCnt = s.byteCnt + 64#64 := rfl
@[simp] theorem emptyBuffer_err (s : State) :
    (emptyBuffer s).err = s.err := rfl
@[simp] theorem emptyBuffer_ecode (s : State) :
    (emptyBuffer s).ecode = s.ecode := rfl
@[simp] theorem emptyBuffer_rdata (s : State) :
    (emptyBuffer s).rdata = s.rdata := rfl
@[simp] theorem emptyBuffer_dp (s : State) :
    (emptyBuffer s).dp = s.dp := rfl
@[simp] theorem emptyBuffer_port (s : State) :
    (emptyBuffer s).port = s.port := rfl
@[simp] theorem emptyBuffer_busData (s : State) :
    (emptyBuffer s).busData = s.busData := rfl
@[simp] theorem emptyBuffer_busRead (s : State) :
    (emptyBuffer s).busRead = s.busRead := rfl
@[simp] theorem emptyBuffer_inputs (s : State) :
    (emptyBuffer s).inputs = s.inputs := rfl
@[simp] theorem emptyBuffer_draws (s : State) :
    (emptyBuffer s).draws = s.draws := rfl

@[simp] theorem storeByte_h (b : Byte) (s : State) (room : s.bufLen.val < 64) :
    (storeByte b s room).h = s.h := rfl
@[simp] theorem storeByte_var (b : Byte) (s : State) (room : s.bufLen.val < 64) :
    (storeByte b s room).var = s.var := rfl
@[simp] theorem storeByte_phase (b : Byte) (s : State) (room : s.bufLen.val < 64) :
    (storeByte b s room).phase = s.phase := rfl
@[simp] theorem storeByte_buf (b : Byte) (s : State) (room : s.bufLen.val < 64) :
    (storeByte b s room).buf = s.buf.set s.bufLen.val b room := rfl
@[simp] theorem storeByte_bufLen (b : Byte) (s : State) (room : s.bufLen.val < 64) :
    (storeByte b s room).bufLen = ⟨s.bufLen.val + 1, Nat.succ_lt_succ room⟩ := rfl
@[simp] theorem storeByte_byteCnt (b : Byte) (s : State) (room : s.bufLen.val < 64) :
    (storeByte b s room).byteCnt = s.byteCnt := rfl
@[simp] theorem storeByte_err (b : Byte) (s : State) (room : s.bufLen.val < 64) :
    (storeByte b s room).err = s.err := rfl
@[simp] theorem storeByte_ecode (b : Byte) (s : State) (room : s.bufLen.val < 64) :
    (storeByte b s room).ecode = s.ecode := rfl
@[simp] theorem storeByte_rdata (b : Byte) (s : State) (room : s.bufLen.val < 64) :
    (storeByte b s room).rdata = s.rdata := rfl
@[simp] theorem storeByte_dp (b : Byte) (s : State) (room : s.bufLen.val < 64) :
    (storeByte b s room).dp = s.dp := rfl
@[simp] theorem storeByte_port (b : Byte) (s : State) (room : s.bufLen.val < 64) :
    (storeByte b s room).port = s.port := rfl
@[simp] theorem storeByte_busData (b : Byte) (s : State) (room : s.bufLen.val < 64) :
    (storeByte b s room).busData = s.busData := rfl
@[simp] theorem storeByte_busRead (b : Byte) (s : State) (room : s.bufLen.val < 64) :
    (storeByte b s room).busRead = s.busRead := rfl
@[simp] theorem storeByte_inputs (b : Byte) (s : State) (room : s.bufLen.val < 64) :
    (storeByte b s room).inputs = s.inputs := rfl
@[simp] theorem storeByte_draws (b : Byte) (s : State) (room : s.bufLen.val < 64) :
    (storeByte b s room).draws = s.draws := rfl

@[simp] theorem acceptCommand_h (cmd data : Word) (s : State) :
    (acceptCommand cmd data s).h = s.h := rfl
@[simp] theorem acceptCommand_var (cmd data : Word) (s : State) :
    (acceptCommand cmd data s).var = s.var := rfl
@[simp] theorem acceptCommand_phase (cmd data : Word) (s : State) :
    (acceptCommand cmd data s).phase = s.phase := rfl
@[simp] theorem acceptCommand_buf (cmd data : Word) (s : State) :
    (acceptCommand cmd data s).buf = s.buf := rfl
@[simp] theorem acceptCommand_bufLen (cmd data : Word) (s : State) :
    (acceptCommand cmd data s).bufLen = s.bufLen := rfl
@[simp] theorem acceptCommand_byteCnt (cmd data : Word) (s : State) :
    (acceptCommand cmd data s).byteCnt = s.byteCnt := rfl
@[simp] theorem acceptCommand_err (cmd data : Word) (s : State) :
    (acceptCommand cmd data s).err = s.err := rfl
@[simp] theorem acceptCommand_ecode (cmd data : Word) (s : State) :
    (acceptCommand cmd data s).ecode = s.ecode := rfl
@[simp] theorem acceptCommand_rdata (cmd data : Word) (s : State) :
    (acceptCommand cmd data s).rdata = s.rdata := rfl
@[simp] theorem acceptCommand_dp (cmd data : Word) (s : State) :
    (acceptCommand cmd data s).dp = s.dp := rfl
@[simp] theorem acceptCommand_port (cmd data : Word) (s : State) :
    (acceptCommand cmd data s).port = { ready := false, rspValid := false, flight := some { cmd := cmd, data := data, wait := Config.latency (latencyClass cmd data) s.draws - 1 }, offer := none, write := none } := rfl
@[simp] theorem acceptCommand_busData (cmd data : Word) (s : State) :
    (acceptCommand cmd data s).busData = s.busData := rfl
@[simp] theorem acceptCommand_busRead (cmd data : Word) (s : State) :
    (acceptCommand cmd data s).busRead = s.busRead := rfl
@[simp] theorem acceptCommand_inputs (cmd data : Word) (s : State) :
    (acceptCommand cmd data s).inputs = s.inputs := rfl
@[simp] theorem acceptCommand_draws (cmd data : Word) (s : State) :
    (acceptCommand cmd data s).draws = s.draws + 1 := rfl

@[simp] theorem resetEngine_h (p : Pins) (s : State) :
    (resetEngine p s).h = State.reset.h := rfl
@[simp] theorem resetEngine_var (p : Pins) (s : State) :
    (resetEngine p s).var = .sha256 := rfl
@[simp] theorem resetEngine_phase (p : Pins) (s : State) :
    (resetEngine p s).phase = .idle := rfl
@[simp] theorem resetEngine_buf (p : Pins) (s : State) :
    (resetEngine p s).buf = State.reset.buf := rfl
@[simp] theorem resetEngine_bufLen (p : Pins) (s : State) :
    (resetEngine p s).bufLen = 0 := rfl
@[simp] theorem resetEngine_byteCnt (p : Pins) (s : State) :
    (resetEngine p s).byteCnt = 0#64 := rfl
@[simp] theorem resetEngine_err (p : Pins) (s : State) :
    (resetEngine p s).err = false := rfl
@[simp] theorem resetEngine_ecode (p : Pins) (s : State) :
    (resetEngine p s).ecode = .none := rfl
@[simp] theorem resetEngine_rdata (p : Pins) (s : State) :
    (resetEngine p s).rdata = 0#32 := rfl
@[simp] theorem resetEngine_dp (p : Pins) (s : State) :
    (resetEngine p s).dp = State.reset.dp := rfl
@[simp] theorem resetEngine_port (p : Pins) (s : State) :
    (resetEngine p s).port = { ready := false, rspValid := false, flight := none, offer := offerOf p, write := s.port.write } := rfl
@[simp] theorem resetEngine_busData (p : Pins) (s : State) :
    (resetEngine p s).busData = 0#32 := rfl
@[simp] theorem resetEngine_busRead (p : Pins) (s : State) :
    (resetEngine p s).busRead = 0#32 := rfl
@[simp] theorem resetEngine_inputs (p : Pins) (s : State) :
    (resetEngine p s).inputs = s.inputs := rfl
@[simp] theorem resetEngine_draws (p : Pins) (s : State) :
    (resetEngine p s).draws = s.draws := rfl

@[simp] theorem placeCommand_h (cmd data : Word) (s : State) :
    (placeCommand cmd data s).h = s.h := rfl
@[simp] theorem placeCommand_var (cmd data : Word) (s : State) :
    (placeCommand cmd data s).var = s.var := rfl
@[simp] theorem placeCommand_phase (cmd data : Word) (s : State) :
    (placeCommand cmd data s).phase = s.phase := rfl
@[simp] theorem placeCommand_buf (cmd data : Word) (s : State) :
    (placeCommand cmd data s).buf = s.buf := rfl
@[simp] theorem placeCommand_bufLen (cmd data : Word) (s : State) :
    (placeCommand cmd data s).bufLen = s.bufLen := rfl
@[simp] theorem placeCommand_byteCnt (cmd data : Word) (s : State) :
    (placeCommand cmd data s).byteCnt = s.byteCnt := rfl
@[simp] theorem placeCommand_err (cmd data : Word) (s : State) :
    (placeCommand cmd data s).err = s.err := rfl
@[simp] theorem placeCommand_ecode (cmd data : Word) (s : State) :
    (placeCommand cmd data s).ecode = s.ecode := rfl
@[simp] theorem placeCommand_rdata (cmd data : Word) (s : State) :
    (placeCommand cmd data s).rdata = s.rdata := rfl
@[simp] theorem placeCommand_dp (cmd data : Word) (s : State) :
    (placeCommand cmd data s).dp = s.dp := rfl
@[simp] theorem placeCommand_port (cmd data : Word) (s : State) :
    (placeCommand cmd data s).port = { s.port with flight := none, offer := none, write := none } := rfl
@[simp] theorem placeCommand_busData (cmd data : Word) (s : State) :
    (placeCommand cmd data s).busData = s.busData := rfl
@[simp] theorem placeCommand_busRead (cmd data : Word) (s : State) :
    (placeCommand cmd data s).busRead = s.busRead := rfl
@[simp] theorem placeCommand_inputs (cmd data : Word) (s : State) :
    (placeCommand cmd data s).inputs = .command cmd data :: s.inputs := rfl
@[simp] theorem placeCommand_draws (cmd data : Word) (s : State) :
    (placeCommand cmd data s).draws = s.draws := rfl

end Sys2Proof.Laws
end

