-- ==== Sys2Proof/Laws/Ops.lean ====
section
/-! SUPPORT. What each shared operation can do: one lemma an operation, which later proofs cite instead of unfolding it. -/

namespace Sys2Proof.Laws

open Sys2Proof.Machine

@[simp] theorem andThen_next (s : State) (f : State → Result) : andThen (.next s) f = f s := rfl
@[simp] theorem andThen_fault (x : Fault) (f : State → Result) : andThen (.fault x) f = .fault x := rfl
@[simp] theorem andThen_refused (x : Refusal) (f : State → Result) : andThen (.refused x) f = .refused x := rfl

/-- A sequence answers a next state only through a next state of its first part. -/
theorem andThen_eq_next {r : Result} {f : State → Result} {t : State} (h : andThen r f = .next t) :
    ∃ s, r = .next s ∧ f s = .next t := by
  cases r with
  | next s => exact ⟨s, rfl, h⟩
  | fault x => cases h
  | refused x => cases h

theorem andThen_assoc (r : Result) (f g : State → Result) :
    andThen (andThen r f) g = andThen r fun s => andThen (f s) g := by
  cases r <;> rfl

theorem andThen_congr {r : Result} {f g : State → Result} (h : ∀ s, r = .next s → f s = g s) :
    andThen r f = andThen r g := by
  cases r with
  | next s => exact h s rfl
  | fault x => rfl
  | refused x => rfl

/-- compress on a whole block (40_compression.md R113). -/
theorem compress_whole {block : List Byte} (hb : block.length = 64) (s : State) :
    compress block s = .next
      { s with
        h := feedForward s.h (compressedDatapath s.h block).work
        dp := compressedDatapath s.h block } := by
  simp [compress, hb]

/-- compress on anything else is the LEN assertion (40_compression.md R114). -/
theorem compress_short {block : List Byte} (hb : block.length ≠ 64) (s : State) : compress block s = .fault .len := by
  simp [compress, hb]

/-- compress, inverted. -/
theorem compress_eq_next {block : List Byte} {s t : State} (h : compress block s = .next t) :
    block.length = 64 ∧ t = { s with
      h := feedForward s.h (compressedDatapath s.h block).work
      dp := compressedDatapath s.h block } := by
  by_cases hb : block.length = 64
  · rw [compress_whole hb] at h
    cases h
    exact ⟨hb, rfl⟩
  · rw [compress_short hb] at h
    cases h

/-- compress never refuses, and its only fault is LEN (60_exceptions.md R208). -/
theorem compress_cases (block : List Byte) (s : State) :
    (∃ t, compress block s = .next t) ∨ compress block s = .fault .len := by
  by_cases hb : block.length = 64
  · exact .inl ⟨_, compress_whole hb s⟩
  · exact .inr (compress_short hb s)

/-- A stored byte extends the residual (43_commands.md R164). -/
theorem liveResidual_storeByte (b : Byte) (s : State) (room : s.bufLen.val < 64) :
    liveResidual (storeByte b s room) = liveResidual s ++ [b] := by
  have hlen : s.bufLen.val < s.buf.toList.length := by simpa using room
  have htake : (s.buf.toList.take s.bufLen.val).length = s.bufLen.val := by
    rw [List.length_take]; omega
  simp only [liveResidual, storeByte_buf, storeByte_bufLen, Vector.toList_set,
    List.set_eq_take_append_cons_drop, if_pos hlen]
  rw [List.take_append, htake, List.take_of_length_le (by omega)]
  simp

theorem liveResidual_length (s : State) : (liveResidual s).length = s.bufLen.val := by
  have := s.bufLen.isLt
  simp [liveResidual]
  omega

/-- When the buffer is full, the residual is the whole buffer. -/
theorem buf_eq_residual {s : State} (h : s.bufLen.val = 64) : s.buf.toList = liveResidual s := by
  simp [liveResidual, h]

/-- absorb of a byte that does not fill the buffer (43_commands.md R164). -/
theorem absorbByte_room (b : Byte) {s : State} (room : s.bufLen.val < 64) (h : s.bufLen.val + 1 ≠ 64) :
    absorbByte b s = .next (storeByte b s room) := by
  simp [absorbByte, room, h]

/-- absorb of the byte that fills the buffer: the block is compressed and the buffer emptied (43_commands.md R164). -/
theorem absorbByte_full (b : Byte) {s : State} (room : s.bufLen.val < 64) (h : s.bufLen.val + 1 = 64) :
    absorbByte b s = .next (emptyBuffer
      { storeByte b s room with
        h := feedForward s.h (compressedDatapath s.h (liveResidual s ++ [b])).work
        dp := compressedDatapath s.h (liveResidual s ++ [b]) }) := by
  have hlen : (storeByte b s room).bufLen.val = 64 := h
  have hbuf : (storeByte b s room).buf.toList = liveResidual s ++ [b] := by
    rw [buf_eq_residual hlen, liveResidual_storeByte]
  rw [absorbByte, dif_pos room, if_pos hlen, hbuf,
    compress_whole (by rw [List.length_append, liveResidual_length, List.length_singleton, h])]
  rfl

/-- absorb with no room (log 4). -/
theorem absorbByte_noRoom (b : Byte) {s : State} (h : ¬ s.bufLen.val < 64) : absorbByte b s = .fault .bufOverrun := by
  simp [absorbByte, h]

end Sys2Proof.Laws
end

