-- ==== Sys2Proof/Laws/Around.lean ====
section
/-! SUPPORT. A command neither reads nor writes the port, the wrapper's registers or the model's own fields (10_state.md R20,
20_memory.md R63): running it commutes with setting them, so it leaves them as they were. -/

namespace Sys2Proof.Laws

open Sys2Proof.Machine

/-- The engine registers of `s` with the port, the wrapper's registers and the model's own fields of `a`. -/
def setAround (a s : State) : State :=
  { s with port := a.port, busData := a.busData, busRead := a.busRead, inputs := a.inputs, draws := a.draws }

/-- Set them in an answer. -/
def setAroundNext (a : State) (r : Result) : Result := andThen r fun t => .next (setAround a t)

theorem setAround_self (s : State) : setAround s s = s := rfl

theorem andThen_setAroundNext (a : State) (r : Result) {f g : State → Result}
    (h : ∀ s, f (setAround a s) = setAroundNext a (g s)) :
    andThen (setAroundNext a r) f = setAroundNext a (andThen r g) := by
  cases r with
  | next s => exact h s
  | fault x => rfl
  | refused x => rfl

theorem compress_setAround (a : State) (block : List Byte) (s : State) :
    compress block (setAround a s) = setAroundNext a (compress block s) := by
  unfold compress
  split <;> simp only [setAroundNext, andThen_next, andThen_fault, setAround]

theorem compressAll_setAround (a : State) (blocks : List (List Byte)) (s : State) :
    compressAll blocks (setAround a s) = setAroundNext a (compressAll blocks s) := by
  induction blocks generalizing s with
  | nil => rfl
  | cons block rest ih =>
    simp only [compressAll, compress_setAround]
    exact andThen_setAroundNext a _ ih

theorem absorbByte_setAround (a : State) (b : Byte) (s : State) :
    absorbByte b (setAround a s) = setAroundNext a (absorbByte b s) := by
  by_cases room : s.bufLen.val < 64
  · by_cases full : s.bufLen.val + 1 = 64
    · rw [absorbByte_full b room full, absorbByte_full b (s := setAround a s) room full]
      rfl
    · rw [absorbByte_room b room full, absorbByte_room b (s := setAround a s) room full]
      rfl
  · rw [absorbByte_noRoom b room, absorbByte_noRoom b (s := setAround a s) room]
    rfl

theorem absorbBytes_setAround (a : State) (l : List Byte) (s : State) :
    absorbBytes l (setAround a s) = setAroundNext a (absorbBytes l s) := by
  induction l generalizing s with
  | nil => rfl
  | cons b rest ih =>
    simp only [absorbBytes, absorbByte_setAround]
    exact andThen_setAroundNext a _ ih

theorem runAccepted_setAround (a : State) (i : Instr) {f : State → Result}
    (h : ∀ s, f (setAround a s) = setAroundNext a (f s)) (s : State) :
    runAccepted i f (setAround a s) = setAroundNext a (runAccepted i f s) := by
  unfold runAccepted
  change (if accepts i s.phase then f (setAround a (clearRData s)) else _) = _
  split
  · exact h _
  · rfl

theorem finalize_setAround (a s : State) : finalize (setAround a s) = setAroundNext a (finalize s) := by
  change andThen (compressAll (paddingBlocks (liveResidual s) (totalBits s.byteCnt s.bufLen.val)) (setAround a s)) _ = _
  rw [compressAll_setAround]
  exact andThen_setAroundNext a _ fun _ => rfl

theorem emitWord_setAround (a : State) (i : BitVec 3) (s : State) :
    emitWord i (setAround a s) = setAround a (emitWord i s) := by
  change (if i.toNat < nw s.var then _ else _) = setAround a (if i.toNat < nw s.var then _ else _)
  split <;> rfl

theorem exec_setAround (a : State) (i : Instr) (s : State) :
    exec i (setAround a s) = setAroundNext a (exec i s) := by
  cases i with
  | nop => exact runAccepted_setAround a .nop (f := .next) (fun _ => rfl) s
  | init v =>
    simp only [exec, execInit]
    cases variantOf v with
    | none => rfl
    | some var => exact runAccepted_setAround a (.init v) (f := fun t => .next (openDigest var t)) (fun _ => rfl) s
  | update nMinus1 data => exact runAccepted_setAround a _ (absorbBytes_setAround a _) s
  | finish => exact runAccepted_setAround a _ (finalize_setAround a) s
  | read index =>
    exact runAccepted_setAround a (.read index) (f := fun t => .next (emitWord index t))
      (fun t => congrArg Host.Outcome.next (emitWord_setAround a index t)) s

theorem runCommand_setAround (a : State) (cmd data : Word) (s : State) :
    runCommand cmd data (setAround a s) = setAroundNext a (runCommand cmd data s) := by
  unfold runCommand
  cases decode cmd data with
  | ok i => exact exec_setAround a i s
  | error _ => rfl

/-- A command leaves the port, the wrapper's registers and the model's own fields as they were. -/
theorem runCommand_around {cmd data : Word} {s t : State} (h : runCommand cmd data s = .next t) : t = setAround s t := by
  have k := runCommand_setAround s cmd data s
  rw [setAround_self, h] at k
  exact Host.Outcome.next.inj k

theorem exec_around {i : Instr} {s t : State} (h : exec i s = .next t) : t = setAround s t := by
  have k := exec_setAround s i s
  rw [setAround_self, h] at k
  exact Host.Outcome.next.inj k

end Sys2Proof.Laws
end

