-- ==== Sys2Proof/Laws/Commands.lean ====
section
/-! SUPPORT. What each command answers: one lemma a command and a case of the phase table (43_commands.md R160 to R175). -/

namespace Sys2Proof.Laws

open Sys2Proof.Machine

theorem runAccepted_accepted {i : Instr} {s : State} (h : accepts i s.phase = true) (f : State → Result) :
    runAccepted i f s = f (clearRData s) := by
  simp [runAccepted, h]

theorem runAccepted_rejected {i : Instr} {s : State} (h : accepts i s.phase = false) (f : State → Result) :
    runAccepted i f s = .next (raiseError .state s) := by
  simp [runAccepted, h]

theorem exec_nop (s : State) : exec .nop s = .next (clearRData s) := rfl

theorem exec_init {v : BitVec 2} {var : Variant} (h : variantOf v = some var) (s : State) :
    exec (.init v) s = .next (openDigest var (clearRData s)) := by
  simp [exec, execInit, h, runAccepted, accepts]

theorem exec_init_reserved {v : BitVec 2} (h : variantOf v = none) (s : State) :
    exec (.init v) s = .next (raiseError .illegal s) := by
  simp [exec, execInit, h]

theorem exec_update {s : State} (h : s.phase = .absorb) (n : BitVec 2) (data : Word) :
    exec (.update n data) s = absorbBytes (laneBytes n data) (clearRData s) :=
  runAccepted_accepted (by simp [accepts, h]) _

theorem exec_update_rejected {s : State} (h : s.phase ≠ .absorb) (n : BitVec 2) (data : Word) :
    exec (.update n data) s = .next (raiseError .state s) :=
  runAccepted_rejected (by simp [accepts, h]) _

theorem exec_finish {s : State} (h : s.phase = .absorb) : exec .finish s = finalize (clearRData s) :=
  runAccepted_accepted (by simp [accepts, h]) _

theorem exec_finish_rejected {s : State} (h : s.phase ≠ .absorb) : exec .finish s = .next (raiseError .state s) :=
  runAccepted_rejected (by simp [accepts, h]) _

theorem exec_read {s : State} (h : s.phase = .done) {i : BitVec 3} (hi : i.toNat < nw s.var) :
    exec (.read i) s = .next { s with rdata := hashWord s.h i } := by
  have := runAccepted_accepted (i := .read i) (s := s) (by simp [accepts, h]) fun t => .next (emitWord i t)
  rw [show exec (.read i) s = _ from this, emitWord, if_pos (by simpa using hi)]
  rfl

theorem exec_read_range {s : State} (h : s.phase = .done) {i : BitVec 3} (hi : nw s.var ≤ i.toNat) :
    exec (.read i) s = .next (raiseError .range s) := by
  have := runAccepted_accepted (i := .read i) (s := s) (by simp [accepts, h]) fun t => .next (emitWord i t)
  rw [show exec (.read i) s = _ from this, emitWord, if_neg (by simpa using hi)]
  rfl

theorem exec_read_rejected {s : State} (h : s.phase ≠ .done) (i : BitVec 3) :
    exec (.read i) s = .next (raiseError .state s) :=
  runAccepted_rejected (i := .read i) (by simp [accepts, h]) fun t => .next (emitWord i t)

/-- The two legal variants (30_encoding.md R84). -/
theorem variantOf_cases (v : BitVec 2) :
    (v = 0#2 ∧ variantOf v = some .sha256) ∨ (v = 1#2 ∧ variantOf v = some .sha224) ∨
      ((v = 2#2 ∨ v = 3#2) ∧ variantOf v = none) := by
  revert v; decide

/-- The one word of eight that a variant may not emit (43_commands.md R175). -/
theorem nw_le_iff (v : Variant) (i : BitVec 3) : nw v ≤ i.toNat ↔ v = .sha224 ∧ i = 7#3 := by
  cases v <;> revert i <;> decide

end Sys2Proof.Laws
end

