-- ==== Sys2Proof/Laws/Padding.lean ====
section
/-! SUPPORT. The lengths of the padding blocks (42_padder.md R143 to R146). -/

namespace Sys2Proof.Laws

open Sys2Proof.Machine

@[simp] theorem zeros_length (n : Nat) : (zeros n).length = n := List.length_replicate

@[simp] theorem bytes64_length (y : BitVec 64) : (bytes64 y).length = 8 := rfl

@[simp] theorem bytes32_length (x : Word) : (bytes32 x).length = 4 := rfl

theorem firstPadding_length {r : List Byte} (h : r.length ≤ 63) : (firstPadding r).length = 64 := by
  simp [firstPadding]; omega

theorem secondPadding_length (bits : BitVec 64) : (secondPadding bits).length = 64 := rfl

theorem onlyPadding_length {r : List Byte} (h : r.length ≤ 63) (bits : BitVec 64) : (onlyPadding r bits).length = 64 := by
  simp [onlyPadding, firstPadding_length h]

theorem paddingBlocks_two {r : List Byte} (h : 56 ≤ r.length) (bits : BitVec 64) :
    paddingBlocks r bits = [firstPadding r, secondPadding bits] := by
  rw [paddingBlocks, if_pos (by simp [needsTwoBlocks]; omega)]

theorem paddingBlocks_one {r : List Byte} (h : r.length ≤ 55) (bits : BitVec 64) :
    paddingBlocks r bits = [onlyPadding r bits] := by
  rw [paddingBlocks, if_neg (by simp [needsTwoBlocks]; omega)]

/-- Every padding block is whole, so finalization never raises LEN (40_compression.md R114). -/
theorem paddingBlocks_whole {r : List Byte} (h : r.length ≤ 63) (bits : BitVec 64) :
    ∀ b ∈ paddingBlocks r bits, b.length = 64 := by
  rcases Nat.lt_or_ge r.length 56 with hr | hr
  · simp [paddingBlocks_one (show r.length ≤ 55 by omega), onlyPadding_length h]
  · simp [paddingBlocks_two hr, firstPadding_length h, secondPadding_length]

end Sys2Proof.Laws
end

