-- ==== Sys2Proof/Laws/Schedule.lean ====
section
/-! SUPPORT. The schedule table and the ring, each with what it holds after n words or n rounds (41_scheduler.md R132 to R135). -/

namespace Sys2Proof.Laws

open Sys2Proof.Machine

theorem extendSchedule_length (n : Nat) (w : List Word) : (extendSchedule n w).length = w.length + n := by
  induction n generalizing w with
  | zero => rfl
  | succ n ih => rw [extendSchedule, ih]; simp; omega

/-- Extending a table keeps its words. -/
theorem extendSchedule_prefix (n : Nat) (w : List Word) {i : Nat} (hi : i < w.length) :
    (extendSchedule n w).getD i 0 = w.getD i 0 := by
  induction n generalizing w with
  | zero => rfl
  | succ n ih =>
    rw [extendSchedule, ih _ (by simp; omega)]
    simp only [List.getD_eq_getElem?_getD, List.getElem?_append_left hi]

/-- Each new word follows the recurrence (41_scheduler.md R133). -/
theorem extendSchedule_rec (n : Nat) (w : List Word) (hw : 16 ≤ w.length) {i : Nat} (hi : w.length ≤ i)
    (hn : i < w.length + n) :
    (extendSchedule n w).getD i 0 =
      smallSigma1 ((extendSchedule n w).getD (i - 2) 0) + (extendSchedule n w).getD (i - 7) 0
        + smallSigma0 ((extendSchedule n w).getD (i - 15) 0) + (extendSchedule n w).getD (i - 16) 0 := by
  induction n generalizing w with
  | zero => omega
  | succ n ih =>
    rw [extendSchedule]
    rcases Nat.eq_or_lt_of_le hi with rfl | hlt
    · have old : ∀ k, 1 ≤ k → k ≤ 16 → (extendSchedule n (w ++ [smallSigma1 (w.getD (w.length - 2) 0)
          + w.getD (w.length - 7) 0 + smallSigma0 (w.getD (w.length - 15) 0) + w.getD (w.length - 16) 0])).getD
          (w.length - k) 0 = w.getD (w.length - k) 0 := by
        intro k h1 h16
        rw [extendSchedule_prefix _ _ (by simp only [List.length_append]; omega)]
        simp only [List.getD_eq_getElem?_getD, List.getElem?_append_left (show w.length - k < w.length by omega)]
      rw [old 2 (by omega) (by omega), old 7 (by omega) (by omega), old 15 (by omega) (by omega),
        old 16 (by omega) (by omega), extendSchedule_prefix _ _ (by simp)]
      simp
    · exact ih _ (by simp; omega) (by simp; omega) (by simp; omega)

/-- W[t] for t < 16 (41_scheduler.md R132). -/
theorem scheduleWord_first (block : List Byte) {t : Nat} (ht : t < 16) : scheduleWord block t = blockWord block t := by
  unfold scheduleWord scheduleTable
  rw [extendSchedule_prefix _ _ (by simpa using ht)]
  simp [List.getD_eq_getElem?_getD, ht]

/-- W[t] for 16 ≤ t ≤ 63 (41_scheduler.md R133). -/
theorem scheduleWord_later (block : List Byte) {t : Nat} (h16 : 16 ≤ t) (ht : t < 64) :
    scheduleWord block t = smallSigma1 (scheduleWord block (t - 2)) + scheduleWord block (t - 7)
      + smallSigma0 (scheduleWord block (t - 15)) + scheduleWord block (t - 16) := by
  unfold scheduleWord scheduleTable
  exact extendSchedule_rec 48 _ (by simp) (by simpa using h16) (by simpa using ht)

theorem datapathRounds_succ (n : Nat) (d : Datapath) :
    datapathRounds (n + 1) d = datapathRound (datapathRounds n d) := by
  induction n generalizing d with
  | zero => rfl
  | succ n ih => rw [datapathRounds, ih, datapathRounds]

/-- A round at t = n < 64 (40_compression.md R110, 41_scheduler.md R134). -/
theorem datapathRound_at {d : Datapath} {n : Nat} (ht : d.t.val = n) (hn : n < 64) :
    datapathRound d =
      { work := roundStep (roundConstant n) (expandRing n d.ring)[n % 16] d.work
        ring := expandRing n d.ring
        t := ⟨n + 1, Nat.succ_lt_succ hn⟩ } := by
  subst ht
  rw [datapathRound, dif_pos hn]

/-- The slots of the ring that a set does not reach. -/
theorem expandRing_other {t j : Nat} (ring : Vector Word 16) (hj : j < 16) (h : 16 ≤ t → t % 16 ≠ j) :
    (expandRing t ring)[j] = ring[j] := by
  unfold expandRing
  split
  · rw [Vector.getElem_set_ne]
    exact h ‹_›
  · rfl

/-- What the ring and the round counter hold after `n` rounds: slot i mod 16 holds W[i] for the last 16 words (R134). -/
theorem ring_after (h : HashState) (block : List Byte) {n : Nat} (hn : n ≤ 64) :
    (datapathRounds n (loadDatapath h block)).t.val = n ∧
    ∀ i, i < max n 16 → max n 16 ≤ i + 16 →
      (datapathRounds n (loadDatapath h block)).ring[i % 16] = scheduleWord block i := by
  induction n with
  | zero =>
    refine ⟨rfl, fun i hi _ => ?_⟩
    have hi : i < 16 := by omega
    rw [scheduleWord_first block hi]
    interval_cases i <;> rfl
  | succ n ih =>
    obtain ⟨ht, hring⟩ := ih (by omega)
    rw [datapathRounds_succ, datapathRound_at ht (by omega)]
    refine ⟨rfl, fun i hi hle => ?_⟩
    dsimp only
    generalize (datapathRounds n (loadDatapath h block)).ring = ring at *
    by_cases h16 : 16 ≤ n
    · rcases Nat.lt_or_ge i n with hin | hin
      · rw [expandRing_other _ (Nat.mod_lt _ (by decide)) (by omega)]
        exact hring i (by omega) (by omega)
      · have hin : i = n := by omega
        subst hin
        have slot : ∀ k, 1 ≤ k → k ≤ 16 → ring[(i - k) % 16]'(Nat.mod_lt _ (by decide)) = scheduleWord block (i - k) :=
          fun k _ _ => hring (i - k) (by omega) (by omega)
        have oldest : ring[i % 16]'(Nat.mod_lt _ (by decide)) = scheduleWord block (i - 16) := by
          have := slot 16 (by omega) (by omega)
          simpa [show (i - 16) % 16 = i % 16 by omega] using this
        simp only [expandRing, if_pos h16, Vector.getElem_set_self]
        rw [slot 2 (by omega) (by omega), slot 7 (by omega) (by omega), slot 15 (by omega) (by omega), oldest,
          scheduleWord_later block h16 (by omega)]
    · rw [expandRing_other _ (Nat.mod_lt _ (by decide)) (by omega)]
      exact hring i (by omega) (by omega)

/-- The word that round `n` takes from the ring (41_scheduler.md R134). -/
theorem ring_consumed (h : HashState) (block : List Byte) {n : Nat} (hn : n < 64) :
    (expandRing n (datapathRounds n (loadDatapath h block)).ring)[n % 16] = scheduleWord block n := by
  obtain ⟨ht, _⟩ := ring_after h block (n := n) (by omega)
  have k := (ring_after h block (n := n + 1) (by omega)).2 n (by omega) (by omega)
  rwa [datapathRounds_succ, datapathRound_at ht hn] at k

/-- The working variables after `n` rounds, in terms of the table. -/
theorem work_after (h : HashState) (block : List Byte) {n : Nat} (hn : n ≤ 64) :
    (datapathRounds n (loadDatapath h block)).work =
      (List.range n).foldl (fun x t => roundStep (roundConstant t) (scheduleWord block t) x) (loadWorking h) := by
  induction n with
  | zero => rfl
  | succ n ih =>
    have ih := ih (by omega)
    have ht := (ring_after h block (n := n) (by omega)).1
    have hw := ring_consumed h block (n := n) (by omega)
    rw [datapathRounds_succ, datapathRound_at ht (by omega), List.range_succ, List.foldl_append, ← ih]
    simp only [hw, List.foldl_cons, List.foldl_nil]

end Sys2Proof.Laws
end

