-- ==== Sys2Proof/Laws/Absorb.lean ====
section
/-! SUPPORT. Absorbing and compressing several bytes or blocks at once (43_commands.md R163, R164, R170). -/

namespace Sys2Proof.Laws

open Sys2Proof.Machine

/-- The datapath's hash state is that of the table form (41_scheduler.md R135). -/
theorem compressed_hash (s : State) (block : List Byte) : feedForward s.h (compressedDatapath s.h block).work = compressTable s.h block := by
  unfold compressTable compressedDatapath tableRounds
  exact congrArg (feedForward s.h) (work_after s.h block (Nat.le_refl 64))

/-- All 64 rounds are done (10_state.md R30). -/
theorem compressed_rounds (h : HashState) (block : List Byte) : (compressedDatapath h block).t.val = 64 := by
  have := (ring_after h block (n := 64) (Nat.le_refl 64)).1
  generalize hd : datapathRounds 64 (loadDatapath h block) = d at this
  unfold compressedDatapath
  rw [hd]; exact this

theorem compressAll_whole {blocks : List (List Byte)} (h : ∀ b ∈ blocks, b.length = 64) (s : State) :
    ∃ t, compressAll blocks s = .next t ∧ t = { s with h := t.h, dp := t.dp } := by
  induction blocks generalizing s with
  | nil => exact ⟨s, rfl, rfl⟩
  | cons block rest ih =>
    rw [compressAll, compress_whole (h block (by simp)), andThen_next]
    obtain ⟨t, ht, hframe⟩ := ih (fun b hb => h b (by simp [hb])) _
    exact ⟨t, ht, hframe⟩

/-- The hash state that a list of whole blocks leaves (40_compression.md R116). -/
theorem compressAll_hash {blocks : List (List Byte)} (h : ∀ b ∈ blocks, b.length = 64) (s : State) :
    ∃ t, compressAll blocks s = .next t ∧ t.h = blocks.foldl compressTable s.h := by
  induction blocks generalizing s with
  | nil => exact ⟨s, rfl, rfl⟩
  | cons block rest ih =>
    rw [compressAll, compress_whole (h block (by simp)), andThen_next]
    obtain ⟨t, ht, hh⟩ := ih (fun b hb => h b (by simp [hb])) { s with
        h := feedForward s.h (compressedDatapath s.h block).work
        dp := compressedDatapath s.h block }
    exact ⟨t, ht, by rw [hh, List.foldl_cons, ← compressed_hash]⟩

theorem absorbBytes_append (l l' : List Byte) (s : State) :
    absorbBytes (l ++ l') s = andThen (absorbBytes l s) (absorbBytes l') := by
  induction l generalizing s with
  | nil => rfl
  | cons b rest ih =>
    simp only [List.cons_append, absorbBytes]
    rw [andThen_assoc]
    exact andThen_congr fun t _ => ih t

/-- What absorbing bytes may change (43_commands.md R164). -/
def AbsorbFrame (s t : State) : Prop :=
  t = { s with h := t.h, buf := t.buf, bufLen := t.bufLen, byteCnt := t.byteCnt, dp := t.dp }

theorem AbsorbFrame.refl (s : State) : AbsorbFrame s s := rfl

theorem AbsorbFrame.trans {s t u : State} (h : AbsorbFrame s t) (k : AbsorbFrame t u) : AbsorbFrame s u := by
  unfold AbsorbFrame at *
  rw [k, h]

/-- absorb of one byte between commands: it completes, and BUFLEN stays below 64 (43_commands.md R164, 10_state.md R25). -/
theorem absorbByte_completes (b : Byte) {s : State} (hs : s.bufLen.val ≤ 63) :
    ∃ t, absorbByte b s = .next t ∧ t.bufLen.val = (s.bufLen.val + 1) % 64 ∧ AbsorbFrame s t := by
  have room : s.bufLen.val < 64 := by omega
  by_cases full : s.bufLen.val + 1 = 64
  · exact ⟨_, absorbByte_full b room full, by rw [full]; rfl, rfl⟩
  · exact ⟨_, absorbByte_room b room full, by simp; omega, rfl⟩

/-- Absorbing bytes between commands completes (43_commands.md R166). -/
theorem absorbBytes_completes (l : List Byte) {s : State} (hs : s.bufLen.val ≤ 63) :
    ∃ t, absorbBytes l s = .next t ∧ t.bufLen.val = (s.bufLen.val + l.length) % 64 ∧ AbsorbFrame s t := by
  induction l generalizing s with
  | nil => exact ⟨s, rfl, by simp; omega, rfl⟩
  | cons b rest ih =>
    obtain ⟨t, ht, hlen, hframe⟩ := absorbByte_completes b hs
    obtain ⟨u, hu, hlen', hframe'⟩ := ih (s := t) (by omega)
    refine ⟨u, by rw [absorbBytes, ht, andThen_next, hu], ?_, hframe.trans hframe'⟩
    rw [hlen', hlen, List.length_cons]
    omega

theorem laneBytes_length (n : BitVec 2) (data : Word) : (laneBytes n data).length = byteCount n := by
  simp [laneBytes]

theorem byteCount_le (n : BitVec 2) : 1 ≤ byteCount n ∧ byteCount n ≤ 4 := by
  have := n.isLt
  simp [byteCount]
  omega

/-- finalize between commands: both cases of the padding are whole blocks (43_commands.md R170). -/
theorem finalize_completes {s : State} (hs : s.bufLen.val ≤ 63) :
    ∃ t, finalize s = .next t ∧ t = { s with h := t.h, dp := t.dp, bufLen := 0, phase := .done } := by
  obtain ⟨t, ht, hframe⟩ := compressAll_whole
    (paddingBlocks_whole (r := liveResidual s) (by rw [liveResidual_length]; exact hs) (totalBits s.byteCnt s.bufLen.val)) s
  refine ⟨closeDigest t, by rw [finalize, ht, andThen_next], ?_⟩
  rw [closeDigest, hframe]

/-- Whatever state bytes are absorbed in, only these registers may change. -/
theorem absorbBytes_frame {l : List Byte} {s t : State} (h : absorbBytes l s = .next t) : AbsorbFrame s t := by
  induction l generalizing s with
  | nil => cases h; rfl
  | cons b l ih =>
    obtain ⟨u, hu, h2⟩ := andThen_eq_next h
    refine AbsorbFrame.trans ?_ (ih h2)
    by_cases room : s.bufLen.val < 64
    · by_cases full : s.bufLen.val + 1 = 64
      · rw [absorbByte_full b room full] at hu; cases hu; rfl
      · rw [absorbByte_room b room full] at hu; cases hu; rfl
    · rw [absorbByte_noRoom b room] at hu; cases hu

/-- Bytes that do not fill the buffer only extend the residual (43_commands.md R164). -/
theorem absorbBytes_room (l : List Byte) {s : State} (hs : s.bufLen.val + l.length < 64) :
    ∃ t, absorbBytes l s = .next t ∧ liveResidual t = liveResidual s ++ l ∧ t.bufLen.val = s.bufLen.val + l.length ∧
      t.h = s.h ∧ t.byteCnt = s.byteCnt ∧ t.dp = s.dp := by
  induction l generalizing s with
  | nil => exact ⟨s, rfl, by simp, rfl, rfl, rfl, rfl⟩
  | cons b l ih =>
    simp only [List.length_cons] at hs
    have room : s.bufLen.val < 64 := by omega
    have h := absorbByte_room b room (by omega)
    obtain ⟨t, h1, h2, h3, h4, h5, h6⟩ := ih (s := storeByte b s room) (by simp; omega)
    refine ⟨t, by rw [absorbBytes, h, andThen_next, h1], ?_, ?_, h4, h5, h6⟩
    · rw [h2, liveResidual_storeByte]; simp
    · rw [h3]; simp; omega

/-- Bytes that just fill the buffer compress it (43_commands.md R164). -/
theorem absorbBytes_fill (l : List Byte) {s : State} (hs : s.bufLen.val ≤ 63) (hl : s.bufLen.val + l.length = 64) :
    ∃ t, absorbBytes l s = .next t ∧ liveResidual t = [] ∧ t.bufLen.val = 0 ∧
      t.h = compressTable s.h (liveResidual s ++ l) ∧ t.byteCnt = s.byteCnt + 64#64 := by
  have hne : l ≠ [] := by rintro rfl; simp at hl; omega
  obtain ⟨l', b, rfl⟩ : ∃ l' b, l = l' ++ [b] := ⟨l.dropLast, l.getLast hne, (List.dropLast_append_getLast hne).symm⟩
  simp only [List.length_append, List.length_singleton] at hl
  obtain ⟨t, h1, h2, h3, h4, h5, h6⟩ := absorbBytes_room l' (s := s) (by omega)
  have room : t.bufLen.val < 64 := by omega
  have h := absorbByte_full b room (by omega)
  refine ⟨_, by rw [absorbBytes_append, h1, andThen_next, absorbBytes, h, andThen_next, absorbBytes], ?_, rfl, ?_, ?_⟩
  · simp [liveResidual, emptyBuffer]
  · simp only [emptyBuffer]
    rw [compressed_hash, h2, h4]; simp
  · simp [emptyBuffer, h5]

/-- Everything that absorbing up to a block of bytes does (43_commands.md R163, R164). -/
theorem absorbBytes_cases (l : List Byte) {s : State} (hs : s.bufLen.val ≤ 63) (hl : l.length ≤ 64) :
    ∃ t, absorbBytes l s = .next t ∧
      (s.bufLen.val + l.length < 64 →
        liveResidual t = liveResidual s ++ l ∧ t.bufLen.val = s.bufLen.val + l.length ∧
        t.h = s.h ∧ t.byteCnt = s.byteCnt ∧ t.dp = s.dp) ∧
      (64 ≤ s.bufLen.val + l.length →
        liveResidual t = (liveResidual s ++ l).drop 64 ∧ t.bufLen.val = s.bufLen.val + l.length - 64 ∧
        t.h = compressTable s.h ((liveResidual s ++ l).take 64) ∧ t.byteCnt = s.byteCnt + 64#64) ∧ AbsorbFrame s t := by
  obtain ⟨t, ht, -, hfr⟩ := absorbBytes_completes l hs
  refine ⟨t, ht, fun h => ?_, fun h => ?_, hfr⟩
  · obtain ⟨u, hu, r⟩ := absorbBytes_room l h
    rw [ht] at hu; cases hu; exact r
  · obtain ⟨u, hu, h2, h3, h4, h5⟩ := absorbBytes_fill (l.take (64 - s.bufLen.val)) hs (by simp; omega)
    have hres := liveResidual_length s
    obtain ⟨w, hw, k1, k2, k3, k4, k5⟩ := absorbBytes_room (l.drop (64 - s.bufLen.val)) (s := u) (by simp; omega)
    have : absorbBytes l s = .next w := by
      rw [← List.take_append_drop (64 - s.bufLen.val) l, absorbBytes_append, hu, andThen_next, hw]
    rw [ht] at this; cases this
    refine ⟨?_, ?_, ?_, ?_⟩
    · rw [k1, h2, List.drop_append, List.drop_of_length_le (l := liveResidual s) (by omega), hres]
    · rw [k2, h3]; simp; omega
    · rw [k3, h4, List.take_append, List.take_of_length_le (l := liveResidual s) (by omega), hres]
    · rw [k4, h5]

/-- compressAll, inverted. -/
theorem compressAll_frame {l : List (List Byte)} {s t : State} (h : compressAll l s = .next t) : t = { s with h := t.h, dp := t.dp } := by
  induction l generalizing s with
  | nil => cases h; rfl
  | cons b l ih =>
    obtain ⟨u, hu, h2⟩ := andThen_eq_next h
    obtain ⟨-, rfl⟩ := compress_eq_next hu
    have := ih h2
    exact this

/-- finalize, inverted: FINISH's frame (43_commands.md R170). -/
theorem finalize_frame {s t : State} (h : finalize s = .next t) : t = { s with h := t.h, dp := t.dp, bufLen := 0, phase := .done } := by
  obtain ⟨u, hu, h2⟩ := andThen_eq_next h
  cases h2
  have := compressAll_frame hu
  rw [closeDigest, this]

end Sys2Proof.Laws
end

