-- ==== Sys2Proof/Laws/Decode.lean ====
section
/-! SUPPORT. Everything the decoder can answer, each answer with the words that give it (30_encoding.md R82, R91). -/

namespace Sys2Proof.Laws

theorem opField_toNat (cmd : Word) : (opField cmd).toNat = cmd.toNat / 2 ^ 28 := by
  have := cmd.isLt
  simp [opField, Nat.shiftRight_eq_div_pow]
  omega

theorem argField_toNat (cmd : Word) : (argField cmd).toNat = cmd.toNat % 4 := by
  simp [argField]

theorem indexField_toNat (cmd : Word) : (indexField cmd).toNat = cmd.toNat % 8 := by
  simp [indexField]

theorem bits_eq_zero (cmd : Word) (low len : Nat) : cmd.extractLsb' low len = 0 ↔ cmd.toNat / 2 ^ low % 2 ^ len = 0 := by
  rw [← BitVec.toNat_inj]
  simp [Nat.shiftRight_eq_div_pow]

theorem bit_one_clear (cmd : Word) : cmd.getLsbD 1 = false ↔ cmd.toNat / 2 % 2 = 0 := by
  simp [BitVec.getLsbD, Nat.testBit, Nat.shiftRight_eq_div_pow]

theorem initWord_toNat (v : BitVec 2) : (0x10000000#32 ||| v.zeroExtend 32).toNat = 0x10000000 + v.toNat := by
  revert v; decide

theorem updateWord_toNat (n : BitVec 2) : (0x20000000#32 ||| n.zeroExtend 32).toNat = 0x20000000 + n.toNat := by
  revert n; decide

theorem readWord_toNat (i : BitVec 3) : (0x40000000#32 ||| i.zeroExtend 32).toNat = 0x40000000 + i.toNat := by
  revert i; decide

/-- The decoder's answers (30_encoding.md R91). -/
theorem decode_cases (cmd data : Word) :
    (cmd = 0x00000000#32 ∧ decode cmd data = .ok .nop) ∨
    (∃ v : BitVec 2, (v = 0#2 ∨ v = 1#2) ∧ cmd = 0x10000000#32 ||| v.zeroExtend 32 ∧ decode cmd data = .ok (.init v)) ∨
    (∃ n : BitVec 2, cmd = 0x20000000#32 ||| n.zeroExtend 32 ∧ decode cmd data = .ok (.update n data)) ∨
    (cmd = 0x30000000#32 ∧ decode cmd data = .ok .finish) ∨
    (∃ i : BitVec 3, cmd = 0x40000000#32 ||| i.zeroExtend 32 ∧ decode cmd data = .ok (.read i)) ∨
    ∃ r, decode cmd data = .error r := by
  have hlt := cmd.isLt
  unfold decode
  rw [opField_toNat]
  simp only [bits_eq_zero, bit_one_clear]
  split
  · split
    · exact .inl ⟨BitVec.eq_of_toNat_eq (by simp; omega), rfl⟩
    · exact .inr (.inr (.inr (.inr (.inr ⟨_, rfl⟩))))
  · split
    · split
      · refine .inr (.inl ⟨argField cmd, ?_, ?_, rfl⟩)
        · rw [← BitVec.toNat_inj, ← BitVec.toNat_inj, argField_toNat]
          simp; omega
        · apply BitVec.eq_of_toNat_eq
          rw [initWord_toNat, argField_toNat]
          omega
      · exact .inr (.inr (.inr (.inr (.inr ⟨_, rfl⟩))))
    · exact .inr (.inr (.inr (.inr (.inr ⟨_, rfl⟩))))
  · split
    · refine .inr (.inr (.inl ⟨argField cmd, ?_, rfl⟩))
      apply BitVec.eq_of_toNat_eq
      rw [updateWord_toNat, argField_toNat]
      omega
    · exact .inr (.inr (.inr (.inr (.inr ⟨_, rfl⟩))))
  · split
    · exact .inr (.inr (.inr (.inl ⟨BitVec.eq_of_toNat_eq (by simp; omega), rfl⟩)))
    · exact .inr (.inr (.inr (.inr (.inr ⟨_, rfl⟩))))
  · split
    · refine .inr (.inr (.inr (.inr (.inl ⟨indexField cmd, ?_, rfl⟩))))
      apply BitVec.eq_of_toNat_eq
      rw [readWord_toNat, indexField_toNat]
      omega
    · exact .inr (.inr (.inr (.inr (.inr ⟨_, rfl⟩))))
  · exact .inr (.inr (.inr (.inr (.inr ⟨_, rfl⟩))))

end Sys2Proof.Laws
end

