-- ==== Sys2Proof/Laws/PerInstr.lean ====
section
/-! SUPPORT. The family EncodedFields: the CMD word of every command lies in its own opcode row, with its operand in the low
bits and every reserved bit 0 (30_encoding.md R81, R82, R87). -/

namespace Sys2Proof.Laws.EncodedFields

/-- The bits of CMD that the operand of a command takes (30_encoding.md R81). -/
def operandBits : Instr → Nat
  | .nop => 0
  | .init _ => 2
  | .update _ _ => 2
  | .finish => 0
  | .read _ => 3

/-- The operand of a command as a number (30_encoding.md R84 to R86). -/
def operandValue : Instr → Nat
  | .nop => 0
  | .init v => v.toNat
  | .update nMinus1 _ => nMinus1.toNat
  | .finish => 0
  | .read i => i.toNat

/-- OP of a command (30_encoding.md R82). -/
def opcode : Instr → Nat
  | .nop => 0
  | .init _ => 1
  | .update _ _ => 2
  | .finish => 3
  | .read _ => 4

/-- The CMD word is OP in bits 31:28 and the operand below, and its opcode row selects it when the command is well-formed. -/
def Statement (i : Instr) : Prop :=
  (encodeCmd i).toNat = opcode i * 2 ^ 28 + operandValue i ∧ operandValue i < 2 ^ operandBits i ∧
  (i.wellFormed = true → ∃ r ∈ opcodeTable, r.mnemonic = mnemonicOf i ∧ r.selects (encodeCmd i) = true)

theorem nop : Statement .nop := by unfold Statement; decide

theorem init (v : BitVec 2) : Statement (.init v) := by unfold Statement; revert v; decide

theorem update (nMinus1 : BitVec 2) (data : Word) : Statement (.update nMinus1 data) := by
  have h : ∀ n : BitVec 2, (0x20000000#32 ||| n.zeroExtend 32).toNat = 2 * 2 ^ 28 + n.toNat ∧
      (0x20000000#32 ||| n.zeroExtend 32) &&& 0xFFFFFFFC#32 = 0x20000000#32 := by decide
  obtain ⟨hw, hm⟩ := h nMinus1
  refine ⟨hw, nMinus1.isLt, fun _ => ⟨{ mnemonic := "UPDATE", pattern := 0x20000000#32, mask := 0xFFFFFFFC#32 }, ?_, rfl, ?_⟩⟩
  · simp [opcodeTable]
  · simp [OpcodeRow.selects, encodeCmd, hm]

theorem finish : Statement .finish := by unfold Statement; decide

theorem read (i : BitVec 3) : Statement (.read i) := by unfold Statement; revert i; decide

end Sys2Proof.Laws.EncodedFields
end

