-- ==== Sys2Proof/Laws/Port.lean ====
section
/-! SUPPORT. What an edge and the wait for a CMD write can do, said once (20_memory.md R51, R65; 70_reset_and_hazards.md R231,
R235, R236). -/

namespace Sys2Proof.Laws

open Sys2Proof.Machine

/-- When an edge has a meaning. -/
theorem edgeRefusal_eq_none {p : Pins} {s : State} :
    edgeRefusal p s = none ↔
      breaksHold s.port.offer (offerOf p) = false ∧ (p.cmdValid = true → s.port.write = none) := by
  unfold edgeRefusal
  cases breaksHold s.port.offer (offerOf p) <;> cases p.cmdValid <;> cases s.port.write <;> simp

theorem presented_write {s : State} {x : Transaction} (h : s.port.write = some x) (p : Pins) : presented p s = some x := by
  simp [presented, h]

theorem presented_pins {s : State} (h : s.port.write = none) (p : Pins) : presented p s = offerOf p := by
  simp [presented, h]

theorem clockEdge_refused {p : Pins} {s : State} {r : Refusal} (h : edgeRefusal p s = some r) :
    clockEdge p s = .refused r := by
  simp [clockEdge, h]

theorem clockEdge_reset {p : Pins} {s : State} (h : edgeRefusal p s = none) (hr : p.rst = true) :
    clockEdge p s = .next (resetEngine p s) := by
  simp [clockEdge, h, hr]

theorem clockEdge_flight {p : Pins} {s : State} {f : Flight} (h : edgeRefusal p s = none) (hr : p.rst = false)
    (hf : s.port.flight = some f) : clockEdge p s = flightEdge f (offerOf p) s := by
  simp [clockEdge, h, hr, hf]

theorem clockEdge_idle {p : Pins} {s : State} (h : edgeRefusal p s = none) (hr : p.rst = false)
    (hf : s.port.flight = none) : clockEdge p s = .next (idleEdge p s) := by
  simp [clockEdge, h, hr, hf]

/-- Everything an edge that answers can do. -/
theorem clockEdge_cases {p : Pins} {s t : State} (h : clockEdge p s = .next t) :
    edgeRefusal p s = none ∧
      ((p.rst = true ∧ t = resetEngine p s) ∨
        (p.rst = false ∧ ∃ f, s.port.flight = some f ∧ flightEdge f (offerOf p) s = .next t) ∨
        (p.rst = false ∧ s.port.flight = none ∧ t = idleEdge p s)) := by
  unfold clockEdge at h
  split at h
  · cases h
  · rename_i hr
    refine ⟨hr, ?_⟩
    cases hrst : p.rst <;> cases hf : s.port.flight <;> simp_all

theorem idleEdge_accepts {p : Pins} {s : State} {x : Transaction} (h : presented p s = some x) (hr : s.port.ready = true) :
    idleEdge p s = acceptCommand x.cmd x.data s := by
  simp [idleEdge, h, hr]

theorem idleEdge_waits {p : Pins} {s : State} (h : ¬(presented p s ≠ none ∧ s.port.ready = true)) :
    idleEdge p s =
      { s with port := { s.port with ready := true, rspValid := false, flight := none, offer := offerOf p } } := by
  unfold idleEdge
  split
  · simp_all
  · rfl

theorem settle_none {s : State} (h : s.port.write = none) : settle s = .next s := by
  simp [settle, h]

theorem settle_some {s : State} {x : Transaction} (h : s.port.write = some x) :
    settle s = andThen (drain s) fun t => .next (acceptCommand x.cmd x.data t) := by
  simp [settle, h]

end Sys2Proof.Laws
end

