-- ==== Sys2Proof/Laws/Run.lean ====
section
/-! SUPPORT. Everything the step of a command can do, said once (43_commands.md R160). -/

namespace Sys2Proof.Laws

open Sys2Proof.Machine

theorem runCommand_ok {cmd data : Word} {i : Instr} (h : decode cmd data = .ok i) (s : State) :
    runCommand cmd data s = exec i s := by
  simp [runCommand, h]

theorem runCommand_error {cmd data : Word} {r : Illegal} (h : decode cmd data = .error r) (s : State) :
    runCommand cmd data s = .next (raiseError .illegal s) := by
  simp [runCommand, h]

/-- The step of a command, inverted: one of the five effects, or an error and nothing else. -/
theorem runCommand_cases {cmd data : Word} {s t : State} (h : runCommand cmd data s = .next t) :
    (∃ v var, decode cmd data = .ok (.init v) ∧ variantOf v = some var ∧ t = openDigest var (clearRData s)) ∨
    (decode cmd data = .ok .finish ∧ s.phase = .absorb ∧ finalize (clearRData s) = .next t) ∨
    (∃ n d, decode cmd data = .ok (.update n d) ∧ s.phase = .absorb ∧
      absorbBytes (laneBytes n d) (clearRData s) = .next t) ∨
    (decode cmd data = .ok .nop ∧ t = clearRData s) ∨
    (∃ i, decode cmd data = .ok (.read i) ∧ s.phase = .done ∧ i.toNat < nw s.var ∧
      t = { s with rdata := hashWord s.h i }) ∨
    ((∀ v, decode cmd data ≠ .ok (.init v)) ∧ ¬(decode cmd data = .ok .finish ∧ s.phase = .absorb) ∧
      ∃ c, (c = .illegal ∨ c = .state ∨ c = .range) ∧ t = raiseError c s) := by
  rcases decode_cases cmd data with ⟨-, hd⟩ | ⟨v, hv, -, hd⟩ | ⟨n, -, hd⟩ | ⟨-, hd⟩ | ⟨j, -, hd⟩ | ⟨r, hd⟩
  · rw [runCommand_ok hd, exec_nop] at h
    cases h
    simp [hd]
  · rw [runCommand_ok hd] at h
    rcases variantOf_cases v with ⟨rfl, hvar⟩ | ⟨rfl, hvar⟩ | ⟨hres, -⟩
    · rw [exec_init hvar] at h; cases h; exact .inl ⟨_, _, hd, hvar, rfl⟩
    · rw [exec_init hvar] at h; cases h; exact .inl ⟨_, _, hd, hvar, rfl⟩
    · rcases hres with rfl | rfl <;> simp at hv
  · rw [runCommand_ok hd] at h
    by_cases hp : s.phase = .absorb
    · rw [exec_update hp] at h; exact .inr (.inr (.inl ⟨_, _, hd, hp, h⟩))
    · rw [exec_update_rejected hp] at h; cases h; simp [hd, hp]
  · rw [runCommand_ok hd] at h
    by_cases hp : s.phase = .absorb
    · rw [exec_finish hp] at h; exact .inr (.inl ⟨hd, hp, h⟩)
    · rw [exec_finish_rejected hp] at h; cases h; simp [hd, hp]
  · rw [runCommand_ok hd] at h
    by_cases hp : s.phase = .done
    · rcases Nat.lt_or_ge j.toNat (nw s.var) with hj | hj
      · rw [exec_read hp hj] at h; cases h; simp [hd, hp, hj]
      · rw [exec_read_range hp hj] at h; cases h; simp [hd]
    · rw [exec_read_rejected hp] at h; cases h; simp [hd]
  · rw [runCommand_error hd] at h
    cases h
    simp [hd]

end Sys2Proof.Laws
end

