-- ==== Sys2Proof/Laws/Wrapper.lean ====
section
/-! SUPPORT. Where an access inside the wrapper's window lands, whatever SHA_BASE is (20_memory.md R63, R64). -/

namespace Sys2Proof.Laws

open Sys2Proof.Machine

theorem wordAligned_iff (addr : Word) : wordAligned addr = true ↔ addr.toNat % 4 = 0 := by
  simp [wordAligned, ← BitVec.toNat_inj]

/-- The offset of an address of the window, at any base, also where the window wraps (log 12). -/
@[simp] theorem wrapperAddr_sub (base : Word) (offset : BitVec 4) :
    wrapperAddr base offset - base = offset.zeroExtend 32 := by
  simp [wrapperAddr, BitVec.add_comm base]

/-- An aligned base leaves the alignment of an address to its offset. -/
theorem wordAligned_wrapperAddr {base : Word} (h : wordAligned base = true) (offset : BitVec 4) :
    wordAligned (wrapperAddr base offset) = decide (offset.toNat % 4 = 0) := by
  rw [Bool.eq_iff_iff, decide_eq_true_iff]
  rw [wordAligned_iff] at *
  have := base.isLt
  have := offset.isLt
  simp [wrapperAddr]
  omega

/-- Everything the decoding of an address of the window can answer. -/
theorem wrapperOffset_wrapperAddr (base : Word) (offset : BitVec 4) (size : BusSize) :
    wrapperOffset base (wrapperAddr base offset) size =
      if size = .word ∧ wordAligned (wrapperAddr base offset) = true ∧ offset.toNat % 4 = 0 then .ok offset
      else .error .busUndefined := by
  have hlt := offset.isLt
  have hsub : (wrapperAddr base offset - base).toNat = offset.toNat := by
    rw [wrapperAddr_sub]; simp; omega
  have hoff : (wrapperAddr base offset - base).extractLsb' 0 4 = offset := by
    apply BitVec.eq_of_toNat_eq
    simp only [BitVec.extractLsb'_toNat, hsub, Nat.shiftRight_zero]
    omega
  rw [wrapperOffset, if_neg (by omega), hoff]
  simp only [wordAligned_iff (wrapperAddr base offset - base), hsub]

/-- The same at an aligned base. -/
theorem wrapperOffset_aligned {base : Word} (h : wordAligned base = true) (offset : BitVec 4) :
    wrapperOffset base (wrapperAddr base offset) .word =
      if offset.toNat % 4 = 0 then .ok offset else .error .busUndefined := by
  rw [wrapperOffset_wrapperAddr, wordAligned_wrapperAddr h]
  simp

end Sys2Proof.Laws
end

