-- ==== Sys2Proof/Machine/ScriptText.lean ====
section
/-! DEFINITION. The script lines of the spec as text: one command a line, operands after commas, comments from `;` on
(30_encoding.md R92, R93; log 18 for the spelling of numbers). -/

namespace Sys2Proof.Machine

/-- The parts of a line. -/
inductive Token where
  /-- A mnemonic or an operand. -/
  | word (w : List Char)
  /-- The comma between operands. -/
  | comma
  /-- A byte string, without its quotes. -/
  | text (s : List Char)
  deriving DecidableEq, Repr

/-- The word read so far, its characters last first. -/
def endWord (acc : List Char) : List Token :=
  if acc.isEmpty then [] else [.word acc.reverse]

/-- The tokens of a line. `quoted` says whether a byte string is open; one that is never closed is no line. -/
def tokens (quoted : Bool) (acc : List Char) : List Char → Option (List Token)
  | [] => if quoted then none else some (endWord acc)
  | c :: rest =>
    if quoted then
      if c = '"' then (tokens false [] rest).map (.text acc.reverse :: ·) else tokens true (c :: acc) rest
    else if c = ';' then some (endWord acc)
    else if c = '"' then (tokens true [] rest).map (endWord acc ++ ·)
    else if c = ',' then (tokens false [] rest).map (endWord acc ++ .comma :: ·)
    else if c = ' ' ∨ c = '\t' then (tokens false [] rest).map (endWord acc ++ ·)
    else tokens false (c :: acc) rest

/-- A digit of base 16 or below. -/
def digitValue (c : Char) : Option Nat :=
  if '0' ≤ c ∧ c ≤ '9' then some (c.toNat - '0'.toNat)
  else if 'a' ≤ c ∧ c ≤ 'f' then some (c.toNat - 'a'.toNat + 10)
  else if 'A' ≤ c ∧ c ≤ 'F' then some (c.toNat - 'A'.toNat + 10)
  else none

/-- A decimal number of one digit, from `low` to `high`: n, i and v of the lines. -/
def smallNumber (low high : Nat) : List Char → Option Nat
  | [c] =>
    match digitValue c with
    | some d => if low ≤ d ∧ d ≤ high then some d else none
    | none => none
  | _ => none

/-- Hexadecimal digits after a value read so far. -/
def hexDigits (value : Nat) : List Char → Option Nat
  | [] => some value
  | c :: rest =>
    match digitValue c with
    | some d => hexDigits (16 * value + d) rest
    | none => none

/-- `0x` and `digits` hexadecimal digits. -/
def hexNumber (digits : Nat) : List Char → Option Nat
  | '0' :: 'x' :: rest => if rest.length = digits then hexDigits 0 rest else none
  | _ => none

/-- The bytes of a byte string: ASCII characters (log 18). -/
def textBytes (s : List Char) : Option (List Byte) :=
  if s.all fun c => c.toNat < 128 then some (s.map fun c => BitVec.ofNat 8 c.toNat) else none

/-- sha256 or sha224. -/
def variantWord (w : List Char) : Option Variant :=
  if w = ['s', 'h', 'a', '2', '5', '6'] then some .sha256
  else if w = ['s', 'h', 'a', '2', '2', '4'] then some .sha224
  else none

/-- INIT's operand: a variant by name, or #v. -/
def initLine (w : List Char) : Option ScriptLine :=
  match w with
  | '#' :: rest => (smallNumber 0 3 rest).map fun v => .initNumber (BitVec.ofNat 2 v)
  | _ => (variantWord w).map .init

/-- A line with no operand. -/
def parsePlain (m : List Char) : Option (List ScriptLine) :=
  if m = ['N', 'O', 'P'] then some [.nop]
  else if m = ['F', 'I', 'N', 'I', 'S', 'H'] then some [.finish]
  else none

/-- A line with one operand that is no byte string. -/
def parseOperand (m w : List Char) : Option (List ScriptLine) :=
  if m = ['I', 'N', 'I', 'T'] then (initLine w).map fun l => [l]
  else if m = ['R', 'E', 'A', 'D'] then (smallNumber 0 7 w).map fun i => [.read (BitVec.ofNat 3 i)]
  else if m = ['.', 'w', 'o', 'r', 'd'] then (hexNumber 8 w).map fun x => [.raw (BitVec.ofNat 32 x)]
  else if m = ['U', 'P', 'D', 'A', 'T', 'E', '.', 'B'] then
    (hexNumber 2 w).map fun b => [updateByteLine (BitVec.ofNat 8 b)]
  else none

/-- UPDATE n, 0xHHHHHHHH. -/
def parseUpdate (m n w : List Char) : Option (List ScriptLine) :=
  if m = ['U', 'P', 'D', 'A', 'T', 'E'] then
    match smallNumber 1 4 n, hexNumber 8 w with
    | some count, some data => some [.update (BitVec.ofNat 2 (count - 1)) (BitVec.ofNat 32 data)]
    | _, _ => none
  else none

/-- The commands that the tokens of a line stand for; an empty line and a comment stand for none. -/
def parseTokens : List Token → Option (List ScriptLine)
  | [] => some []
  | [.word m] => parsePlain m
  | [.word m, .word w] => parseOperand m w
  | [.word m, .text s] =>
    if m = ['A', 'B', 'S', 'O', 'R', 'B'] then (textBytes s).map absorbScript else none
  | [.word m, .word w, .comma, .word x] => parseUpdate m w x
  | [.word m, .word w, .comma, .text s] =>
    if m = ['D', 'I', 'G', 'E', 'S', 'T'] then
      match variantWord w, textBytes s with
      | some var, some message => some (digestScript var message)
      | _, _ => none
    else none
  | _ => none

/-- The commands of one line of text (30_encoding.md R92, R93). -/
def parseLine (line : List Char) : Option (List ScriptLine) :=
  (tokens false [] line).bind parseTokens

/-- The commands of a script, from its lines. -/
def parseScript : List (List Char) → Option (List ScriptLine)
  | [] => some []
  | line :: rest =>
    match parseLine line, parseScript rest with
    | some l, some ls => some (l ++ ls)
    | _, _ => none

end Sys2Proof.Machine
end

