-- ==== Sys2Proof/Tests/Slice0.lean ====
section
/-! SUPPORT. Small tests on values of 95_test_vectors.md, and for each statement with hypotheses a state and operands that meet
them. -/

namespace Sys2Proof.Tests

open Sys2Proof.Machine

/-! ### Small states -/

/-- SHA-256 open with a residual of `n` bytes 0x61 and no block compressed yet. -/
def absorbing (n : Fin 65) : State :=
  { State.reset with phase := .absorb, h := ivTable .sha256, buf := Vector.replicate 64 0x61#8, bufLen := n }

/-- SHA-224 open and empty. -/
def absorbing224 : State := { absorbing 0 with var := .sha224, h := ivTable .sha224 }

/-- A completed SHA-256 with the digest of "abc" (95_test_vectors.md P1). -/
def done256 : State :=
  { State.reset with
    phase := .done
    h := #v[0xba7816bf#32, 0x8f01cfea#32, 0x414140de#32, 0x5dae2223#32,
      0xb00361a3#32, 0x96177a9c#32, 0xb410ff61#32, 0xf20015ad#32] }

/-- A completed SHA-224 with the digest of the empty message (95_test_vectors.md P2). -/
def done224 : State :=
  { State.reset with
    phase := .done
    var := .sha224
    h := #v[0xd14a028c#32, 0x2a3a2bc9#32, 0x476102bb#32, 0x288234c4#32,
      0x15a2b01f#32, 0x828ea62a#32, 0xc5b3e42f#32, 0xbdd387cb#32] }

/-- An error recorded in IDLE (95_test_vectors.md P4, second row). -/
def failed : State := { State.reset with err := true, ecode := .state }

/-- A port that is ready, with nothing in flight. -/
def readyPort : Port := { ready := true, rspValid := false, flight := none, offer := none, write := none }

/-- A port with FINISH in flight, `n` edges before the one that answers. -/
def busyPort (n : Nat) : Port :=
  { ready := false, rspValid := false, flight := some { cmd := 0x30000000#32, data := 0#32, wait := n }, offer := none,
    write := none }

/-- A port on which NOP is presented and not yet accepted. -/
def offeredPort : Port :=
  { ready := true, rspValid := false, flight := none, offer := some { cmd := 0#32, data := 0#32 }, write := none }

/-- A port on which a CMD write of NOP waits. -/
def writtenPort (ready : Bool) : Port :=
  { ready := ready, rspValid := false, flight := none, offer := none, write := some { cmd := 0#32, data := 0#32 } }

def quietPins : Pins := { rst := false, cmdValid := false, cmd := 0#32, data := 0#32 }

def nopPins : Pins := { rst := false, cmdValid := true, cmd := 0#32, data := 0#32 }

def resetPins : Pins := { rst := true, cmdValid := true, cmd := 0#32, data := 0#32 }

/-- What a host reads after an answer: STATUS and RDATA. -/
def shown : Result → Option (Word × Word)
  | .next s => some (statusWord s, s.rdata)
  | .fault _ => none
  | .refused _ => none

/-! ### Well-formedness and decoding -/

theorem test_init_three_is_ill_formed : (Instr.init 2#2).wellFormed = false ∧ (Instr.init 3#2).wellFormed = false := by decide

theorem test_others_are_well_formed :
    (Instr.init 1#2).wellFormed = true ∧ (Instr.nop).wellFormed = true ∧ (Instr.finish).wellFormed = true ∧
    (Instr.update 3#2 0xFFFFFFFF#32).wellFormed = true ∧ (Instr.read 7#3).wellFormed = true := by decide

/-- 30_encoding.md R82, NOP: OP = 0000, the other bits 0. -/
theorem test_decode_nop : decode 0b00000000000000000000000000000000#32 0x12345678#32 = .ok .nop := by decide

/-- 30_encoding.md R82, INIT: OP = 0001, V in bit 0. -/
theorem test_decode_init : decode 0b00010000000000000000000000000001#32 0#32 = .ok (.init 1#2) := by decide

/-- 30_encoding.md R82, UPDATE: OP = 0010, N - 1 in bits 1:0. -/
theorem test_decode_update :
    decode 0b00100000000000000000000000000010#32 0x61626300#32 = .ok (.update 2#2 0x61626300#32) := by decide

/-- 30_encoding.md R82, FINISH: OP = 0011, the other bits 0. -/
theorem test_decode_finish : decode 0b00110000000000000000000000000000#32 0#32 = .ok .finish := by decide

/-- 30_encoding.md R82, READ: OP = 0100, I in bits 2:0. -/
theorem test_decode_read : decode 0b01000000000000000000000000000101#32 0#32 = .ok (.read 5#3) := by decide

/-- The ILLEGAL rows of 95_test_vectors.md 2.5. -/
theorem test_decode_illegal :
    decode 0x0FFFFFFF#32 0#32 = .error .reservedBits ∧ decode 0x10000003#32 0#32 = .error .reservedVariant ∧
    decode 0x20000004#32 0#32 = .error .reservedBits ∧ decode 0x30000001#32 0#32 = .error .reservedBits ∧
    decode 0x40000008#32 0#32 = .error .reservedBits ∧ decode 0x50000000#32 0#32 = .error .reservedOpcode ∧
    decode 0x80000000#32 0#32 = .error .reservedOpcode := by decide

/-- A two-word transaction in the table's numbering: DATA is bits 63..32. -/
theorem test_table_word : decodeTableWord 64 0x6162630020000002 = some (.update 2#2 0x61626300#32) := by decide

/-! ### One step each (95_test_vectors.md parts 2 and 3) -/

/-- P4, last row: NOP clears RDATA and changes no STATUS field. -/
theorem test_nop : shown (step ({ done224 with err := true, ecode := .range, rdata := 7#32 }.withFetchWord 32 0)) =
    some (0x0000003e#32, 0#32) := by decide

/-- P2, first row. -/
theorem test_init_sha224 : shown (step (State.reset.withFetchWord 32 0x10000001)) = some (0x00000005#32, 0#32) := by decide

/-- 2.7: INIT clears an error record. -/
theorem test_init_clears_error : shown (step (failed.withFetchWord 32 0x10000000)) = some (0x00000001#32, 0#32) := by decide

/-- 2.6, first row: UPDATE 1 takes lane 0 only. -/
theorem test_update_lane : ∃ t, exec (.update 0#2 0xab123456#32) (absorbing 0) = .next t ∧
    liveResidual t = [0xab#8] ∧ statusWord t = 0x00000101#32 := ⟨_, rfl, by decide, by decide⟩

/-- P5, the UPDATE that crosses a block: BUFLEN 63 to 1, one compression. -/
theorem test_update_crosses : ∃ t, exec (.update 1#2 0x61610000#32) (absorbing 63) = .next t ∧
    statusWord t = 0x00000101#32 ∧ t.byteCnt = 64#64 := ⟨_, rfl, by decide +kernel, by decide +kernel⟩

/-- V-L1-3, L = 55: one padding block. -/
theorem test_finish_one_block : ∃ t, exec .finish (absorbing 55) = .next t ∧
    t.h = #v[0x9f4390f8#32, 0xd30c2dd9#32, 0x2ec9f095#32, 0xb65e2b9a#32,
      0xe9b0a925#32, 0xa5258e24#32, 0x1c9f1e91#32, 0x0f734318#32] := ⟨_, rfl, by decide +kernel⟩

/-- V-L1-3, L = 56: two padding blocks. -/
theorem test_finish_two_blocks : ∃ t, exec .finish (absorbing 56) = .next t ∧
    t.h = #v[0xb35439a4#32, 0xac6f0948#32, 0xb6d6f9e3#32, 0xc6af0f5f#32,
      0x590ce20f#32, 0x1bde7090#32, 0xef797068#32, 0x6ec6738a#32] := ⟨_, rfl, by decide +kernel⟩

/-- P1: READ 1 of "abc". -/
theorem test_read : shown (step (done256.withFetchWord 32 0x40000001)) = some (0x00000002#32, 0x8f01cfea#32) := by decide

/-- P2, last row: READ 7 of a SHA-224 digest. -/
theorem test_read_range : shown (step (done224.withFetchWord 32 0x40000007)) = some (0x0000003e#32, 0#32) := by decide

/-- 2.7: FINISH in IDLE, an ILLEGAL word in IDLE, and ILLEGAL before RANGE in DONE. -/
theorem test_errors :
    shown (step (State.reset.withFetchWord 32 0x30000000)) = some (0x00000028#32, 0#32) ∧
    shown (step (State.reset.withFetchWord 32 0x50000000)) = some (0x00000018#32, 0#32) ∧
    shown (step (done224.withFetchWord 32 0x4000000F)) = some (0x0000001e#32, 0#32) ∧
    shown (step (absorbing224.withFetchWord 32 0x40000007)) = some (0x0000002d#32, 0#32) := by decide

/-- 2.3: the round of t = 63 of the padded block "abc" (V-L2.3, last row of the trace). -/
theorem test_round_63 :
    (compressedDatapath (ivTable .sha256) ([0x61#8, 0x62#8, 0x63#8, 0x80#8] ++ zeros 52 ++ bytes64 24#64)).work =
      { a := 0x506e3058#32, b := 0xd39a2165#32, c := 0x04d24d6c#32, d := 0xb85e2ce9#32
        e := 0x5ef50f24#32, f := 0xfb121210#32, g := 0x948d25b6#32, h := 0x961f4894#32 } := by decide +kernel

/-- 2.4, the corner of R142: BYTECNT = 2^61 wraps to length 0. -/
theorem test_length_wraps : totalBits 0x2000000000000000#64 0 = 0#64 := by decide

/-! ### The port and the wrapper -/

/-- 70_reset_and_hazards.md R235: a command presented at a reset edge and then withdrawn. -/
theorem test_hold_through_reset : ∃ t, clockEdge resetPins State.reset = .next t ∧
    clockEdge quietPins t = .refused .handshakeHold := ⟨_, rfl, rfl⟩

/-- 20_memory.md R63 at the base 0x1004: STATUS is read at 0x100C. -/
theorem test_wrapper_status : handle 0x1004#32 (.busRead 0x100C#32 .word) failed =
    .next { failed with busRead := 0x28#32 } := rfl

/-- 20_memory.md R65, 70_reset_and_hazards.md R231: a CMD write made in reset is not accepted by a further edge with rst = 1, but
by the second one with rst = 0. -/
theorem test_cmd_write_waits_for_reset :
    ∃ t u v, clockEdge { quietPins with rst := true } { State.reset with port := writtenPort false } = .next t ∧
      t.port.flight = none ∧ clockEdge quietPins t = .next u ∧ u.port.flight = none ∧
      clockEdge quietPins u = .next v ∧ v.port.flight.isSome = true :=
  ⟨_, _, _, rfl, rfl, rfl, rfl, rfl, rfl⟩

/-- 20_memory.md R65: STATUS read after a CMD write shows BUSY. -/
theorem test_read_after_cmd_write : ∃ t, handle 0#32 (.busRead 0x8#32 .word) { failed with port := writtenPort true } = .next t ∧
    t.busRead = 0x4028#32 := ⟨_, rfl, rfl⟩

/-! ### Script text (30_encoding.md R92, R93) -/

theorem test_text_update : (parseLine "UPDATE 3, 0x61626300 ; abc".toList).map (·.map assemble) =
    some [{ cmd := 0x20000002#32, data := 0x61626300#32 }] := by decide

theorem test_text_digest : (parseScript ["; P1".toList, "DIGEST sha256, \"abc\"".toList]).map (·.map assemble) =
    some ([{ cmd := 0x10000000#32, data := 0#32 }, { cmd := 0x20000002#32, data := 0x61626300#32 },
      { cmd := 0x30000000#32, data := 0#32 }] ++
      (List.range 8).map fun i => { cmd := 0x40000000#32 + BitVec.ofNat 32 i, data := 0#32 }) := by decide

theorem test_text_others :
    (parseLine "INIT #3".toList).map (·.map assemble) = some [{ cmd := 0x10000003#32, data := 0#32 }] ∧
    (parseLine ".word 0x4000000F".toList).map (·.map assemble) = some [{ cmd := 0x4000000F#32, data := 0#32 }] ∧
    parseLine "READ 8".toList = none ∧ parseLine "UPDATE 0, 0x00000000".toList = none := by decide

/-! ### A state that meets the hypotheses of each statement -/

theorem witness_DecodeOfEncodeIsCommand : (Instr.init 1#2).wellFormed = true ∧ (Instr.read 7#3).wellFormed = true := by decide

theorem witness_EncodeOfDecodeIsWord : decode 0x20000003#32 0xFFFFFFFF#32 = .ok (.update 3#2 0xFFFFFFFF#32) := by decide

theorem witness_LegalWordsAreTheTableRows :
    opField 0x00000000#32 = 0#4 ∧ opField 0x30000000#32 = 3#4 ∧ opField 0x10000001#32 = 1#4 ∧ opField 0x20000003#32 = 2#4 ∧
    opField 0x40000007#32 = 4#4 ∧
    (decode 0x40000007#32 0#32 = .ok (.read 7#3) ∧ ∃ r ∈ opcodeTable, r.selects 0x40000007#32 = true) ∧
    ∀ i, decode 0x40000008#32 0#32 ≠ .ok i := by
  refine ⟨by decide, by decide, by decide, by decide, by decide, by decide, ?_⟩
  rw [show decode 0x40000008#32 0#32 = .error .reservedBits by decide]
  simp

theorem witness_ReservedOpcodesAreIllegal :
    5 ≤ (opField 0x50000000#32).toNat ∧ 5 ≤ (opField 0xFFFFFFFF#32).toNat := by decide

theorem witness_DataIsReadByUpdateLanesOnly :
    opField 0x40000000#32 ≠ 2#4 ∧ 3 < byteCount 3#2 ∧ 0 < byteCount 0#2 ∧
    (∀ k < byteCount 0#2, (0xab123456#32).extractLsb' (24 - 8 * k) 8 = (0xab000000#32).extractLsb' (24 - 8 * k) 8) ∧
    ∃ i, decode 0x30000000#32 0#32 = .ok i := by
  refine ⟨by decide, by decide, by decide, by decide, ⟨_, rfl⟩⟩

/-- A state whose next event is the transaction of `cmd`. -/
def posted (cmd : Word) : State := { absorbing 0 with inputs := [.command cmd 0#32] }

theorem witness_StepRunsTheDecodedCommand :
    (posted 0x30000000#32).inputs = .command 0x30000000#32 0#32 :: [] ∧ (posted 0x30000000#32).port.flight = none ∧
    (posted 0x30000000#32).port.offer = none ∧ (posted 0x30000000#32).port.write = none ∧ decode 0x30000000#32 0#32 = .ok .finish ∧
    decodeTableWord 32 0x40000007 = some (.read 7#3) := by decide

theorem witness_StepRejectsAnIllegalWord :
    (posted 0xF0000000#32).inputs = .command 0xF0000000#32 0#32 :: [] ∧ (posted 0xF0000000#32).port.flight = none ∧
    (posted 0xF0000000#32).port.offer = none ∧ (posted 0xF0000000#32).port.write = none ∧ decode 0xF0000000#32 0#32 = .error .reservedOpcode := by decide

theorem witness_IdleEngineHoldsItsState : State.reset.inputs = [] := rfl

/-- An edge that answers a command in flight is a host event that is no reset. -/
theorem witness_EventsActByWholeCommands :
    (∀ p : Pins, HostEvent.edge quietPins = .edge p → p.rst = false) ∧
    (∃ t, handle 0#32 (.edge quietPins) { absorbing 3 with port := busyPort 0 } = .next t) ∧
    answeredBy (.edge quietPins) { absorbing 3 with port := busyPort 0 } = [{ cmd := 0x30000000#32, data := 0#32 }] := by
  refine ⟨?_, ⟨_, rfl⟩, by decide⟩
  rintro p ⟨⟩
  rfl

theorem witness_NopOnlyClearsRData :
    opField 0x00000001#32 = 0#4 ∧ (0x00000001#32).extractLsb' 0 28 ≠ 0#28 := by decide

theorem witness_InitLoadsTheIvAndOpens :
    (1#2 = 0#2 ∨ 1#2 = 1#2) ∧ failed.port.flight = none ∧ (∃ t, exec (.init 1#2) failed = .next t) ∧
    opField 0x10000002#32 = 1#4 ∧ (0x10000002#32).extractLsb' 1 27 ≠ 0#27 :=
  ⟨by decide, rfl, ⟨_, rfl⟩, by decide, by decide⟩

theorem witness_ReservedVariantsAreIllegal : 2#2 = 2#2 ∨ 2#2 = 3#2 := by decide

theorem witness_UpdateAbsorbsItsLanes :
    (opField 0x21000000#32 = 2#4 ∧ (0x21000000#32).extractLsb' 2 26 ≠ 0#26) ∧ done256.phase ≠ .absorb ∧
    ((absorbing 59).phase = .absorb ∧ (absorbing 59).bufLen.val ≤ 63 ∧ (absorbing 59).bufLen.val + byteCount 3#2 < 64) ∧
    ((absorbing 60).phase = .absorb ∧ (absorbing 60).bufLen.val ≤ 63 ∧ 64 ≤ (absorbing 60).bufLen.val + byteCount 3#2) ∧
    ((absorbing 63).phase = .absorb ∧ (absorbing 63).bufLen.val ≤ 63 ∧ 64 ≤ (absorbing 63).bufLen.val + byteCount 0#2) ∧
    State.reset.port.flight = none := by decide

theorem witness_UpdateStoresOnlyItsBytes :
    (absorbing 63).phase = .absorb ∧ (absorbing 63).bufLen.val ≤ 63 ∧ 1 < byteCount 1#2 ∧
    ∀ k < byteCount 1#2, 1 ≠ ((absorbing 63).bufLen.val + k) % 64 := by decide

theorem witness_PhaseTableDecidesAcceptance :
    State.reset.phase ≠ .absorb ∧ (absorbing 0).phase ≠ .done ∧ (0#2 = 0#2 ∨ 0#2 = 1#2) ∧
    ((absorbing 63).phase = .absorb ∧ (absorbing 63).bufLen.val ≤ 63) ∧
    (done224.phase = .done ∧ (6#3).toNat < nw done224.var) ∧ (done224.phase = .done ∧ nw done224.var ≤ (7#3).toNat) := by decide

theorem witness_FinishCompressesThePadding :
    (opField 0x30000001#32 = 3#4 ∧ (0x30000001#32).extractLsb' 0 28 ≠ 0#28) ∧ done256.phase ≠ .absorb ∧
    ((absorbing 55).phase = .absorb ∧ (absorbing 55).bufLen.val + 1 ≤ 56) ∧
    ((absorbing 56).phase = .absorb ∧ 56 < (absorbing 56).bufLen.val + 1) ∧ (absorbing 63).bufLen.val ≤ 63 := by decide

theorem witness_ReadReturnsADigestWord :
    (done256.phase = .done ∧ (7#3).toNat < nw done256.var) ∧ (done224.phase = .done ∧ done224.var = .sha224) ∧
    State.reset.phase ≠ .done ∧ opField 0x4000000F#32 = 4#4 ∧ (0x4000000F#32).extractLsb' 3 25 ≠ 0#25 := by decide

theorem witness_ReadsAreIdempotent :
    done224.phase = .done ∧ (∀ i ∈ [0#3, 6#3, 0#3], i.toNat < nw done224.var) ∧ (6#3).toNat < nw done224.var := by decide

theorem witness_RejectionChangesOnlyTheErrorRecord :
    rejection 0x50000000#32 0#32 done224 = some .illegal ∧ rejection 0x30000000#32 0#32 done224 = some .state ∧
    rejection 0x40000007#32 0#32 done224 = some .range := by decide

theorem witness_AcceptedCommandKeepsTheErrorRecord :
    ((absorbing 63).bufLen.val ≤ 63 ∧ rejection 0x20000003#32 0#32 (absorbing 63) = none) ∧
    (∀ v, decode 0x20000003#32 0#32 ≠ .ok (.init v)) ∧ rejection 0x10000001#32 0#32 failed = none ∧
    ∃ v, decode 0x10000001#32 0#32 = .ok (.init v) := ⟨by decide, by decide, by decide, ⟨_, rfl⟩⟩

theorem witness_ErrorsHaveAPriority :
    (∀ i, decode 0x50000000#32 0#32 ≠ .ok i) ∧
    (decode 0x30000000#32 0#32 = .ok .finish ∧ accepts .finish done224.phase = false) ∧
    (decode 0x40000007#32 0#32 = .ok (.read 7#3) ∧ accepts (.read 7#3) done224.phase = true ∧
      nw done224.var ≤ (7#3).toNat) ∧
    absorbing224.phase = .absorb ∧ (done224.phase = .done ∧ done224.var = .sha224) ∧
    (resetPins.rst = true ∧ edgeRefusal resetPins { done224 with port := offeredPort } = none) := by
  refine ⟨?_, by decide, by decide, by decide, by decide, by decide⟩
  rw [show decode 0x50000000#32 0#32 = .error .reservedOpcode by decide]
  simp

theorem witness_LaterErrorsKeepTheFirstCode :
    failed.err = true ∧ rejection 0x50000000#32 0#32 failed = some .illegal := by decide

theorem witness_ErrorRecordClearsByInitOrReset :
    failed.err = true ∧ (∃ t, runCommand 0x10000000#32 0#32 failed = .next t ∧ t.err = false) ∧
    (∃ t, runCommand 0x10000002#32 0#32 failed = .next t) ∧
    ∀ v var, decode 0x10000002#32 0#32 = .ok (.init v) → variantOf v ≠ some var := by
  refine ⟨rfl, ⟨_, rfl, rfl⟩, ⟨_, rfl⟩, ?_⟩
  have h : decode 0x10000002#32 0#32 = .error .reservedVariant := by decide
  simp [h]

theorem witness_PhaseTransitions :
    (∃ t, runCommand 0x10000000#32 0#32 done224 = .next t) ∧ (∃ v, decode 0x10000000#32 0#32 = .ok (.init v)) ∧
    (decode 0x30000000#32 0#32 = .ok .finish ∧ (absorbing 3).phase = .absorb) ∧
    (∃ t, runCommand 0x30000000#32 0#32 (absorbing 3) = .next t) ∧
    (∀ v, decode 0x40000000#32 0#32 ≠ .ok (.init v)) ∧ ¬(decode 0x40000000#32 0#32 = .ok .finish ∧ done224.phase = .absorb) ∧
    answeredBy (.edge nopPins) { done224 with port := readyPort } = [] ∧
    ∃ t, handle 0#32 (.edge nopPins) { done224 with port := readyPort } = .next t :=
  ⟨⟨_, rfl⟩, ⟨_, rfl⟩, by decide, ⟨_, rfl⟩, by decide, by decide, by decide, ⟨_, rfl⟩⟩

theorem witness_DigestIsHeldUntilInitOrReset :
    done224.phase = .done ∧ (∀ p : Pins, HostEvent.edge quietPins = .edge p → p.rst = false) ∧
    (∀ x ∈ answeredBy (.edge quietPins) { done224 with port := busyPort 0 }, ∀ v, decode x.cmd x.data ≠ .ok (.init v)) ∧
    ∃ t, handle 0#32 (.edge quietPins) { done224 with port := busyPort 0 } = .next t := by
  refine ⟨rfl, ?_, by decide, ⟨_, rfl⟩⟩
  rintro p ⟨⟩
  rfl

theorem witness_EveryStepKeepsTheInvariant :
    ({ absorbing 63 with port := busyPort 0, inputs := [.edge quietPins] } : State).Inv ∧
    ∃ t, step { absorbing 63 with port := busyPort 0, inputs := [.edge quietPins] } = .next t :=
  ⟨by decide, ⟨_, rfl⟩⟩

theorem witness_EveryAcceptedCommandCompletes : (absorbing 63).Inv ∧ done224.Inv ∧ failed.Inv := by decide

theorem witness_NoRunFaults : (zeros 63).length < 64 ∧ ({ absorbing 63 with port := busyPort 1 } : State).Inv := by decide

theorem witness_StatusFields :
    (absorbing 63).bufLen.val ≤ 63 ∧ (absorbing 63).port.flight = none := by decide

theorem witness_ResetEdgeClearsTheEngine :
    (resetPins.rst = true ∧ edgeRefusal resetPins { absorbing 63 with port := offeredPort } = none) ∧
    (done224.inputs = (absorbing 63).inputs ∧ done224.draws = (absorbing 63).draws ∧
      done224.port.write = offeredPort.write ∧ edgeRefusal resetPins done224 = none) ∧
    nopPins.rst = false ∧ edgeRefusal nopPins (resetEngine resetPins { absorbing 63 with port := offeredPort }) = none := by decide

theorem witness_RotationMovesBits : 1 ≤ 31 ∧ 31 ≤ 31 ∧ 31 < 32 := by decide

theorem witness_RoundStepShiftsTheState : roundConstant 0 + (-roundConstant 0) = 0#32 := by decide

theorem witness_ScheduleFollowsTheRecurrence : 15 < 16 ∧ 16 ≤ 63 ∧ 63 ≤ 63 := by decide

theorem witness_CompressIsTheTableCompression : (zeros 64).length = 64 := by decide

theorem witness_PaddingSpellsTheLength :
    (zeros 55).length ≤ 55 ∧ ¬(zeros 56).length ≤ 55 ∧ (zeros 63).length ≤ 63 := by decide

theorem witness_BlocksOfAMessage : (zeros 120).length = 120 := by decide

theorem witness_Absorbed : Absorbed .sha256 (List.replicate 63 0x61#8) (absorbing 63) := by unfold Absorbed; decide

theorem witness_LengthFieldCountsBits :
    (List.replicate 63 0x61#8).length < 2 ^ 61 ∧ Absorbed .sha256 (List.replicate 63 0x61#8) (absorbing 63) :=
  ⟨by decide, witness_Absorbed⟩

theorem witness_AbsorptionInvariant :
    variantOf 1#2 = some .sha224 ∧ Absorbed .sha256 (List.replicate 63 0x61#8) (absorbing 63) ∧
    (∀ n d, decode 0x40000000#32 0#32 ≠ .ok (.update n d)) ∧ (∀ x, decode 0x40000000#32 0#32 ≠ .ok (.init x)) ∧
    ∃ t, runCommand 0x40000000#32 0#32 (absorbing 63) = .next t ∧ t.phase = .absorb := by
  refine ⟨by decide, witness_Absorbed, ?_, ?_, _, rfl, rfl⟩ <;>
    rw [show decode 0x40000000#32 0#32 = .ok (.read 0#3) by decide] <;> simp

theorem witness_FinishLeavesTheDigest :
    Absorbed .sha256 (List.replicate 63 0x61#8) (absorbing 63) ∧ (7#3).toNat < nw .sha256 :=
  ⟨witness_Absorbed, by decide⟩

theorem witness_ChunkingDoesNotMatter :
    (absorbing 63).phase = .absorb ∧ (absorbing 63).bufLen.val ≤ 63 ∧
    updateBytes [(2#2, 0x61626300#32)] = updateBytes [(0#2, 0x61FFFFFF#32), (1#2, 0x62630000#32)] := by decide

theorem witness_DigestScriptComputesTheDigest :
    failed.port.flight = none ∧ failed.port.offer = none ∧ failed.port.write = none ∧ 6 < nw .sha224 ∧
    ({ failed with inputs := scriptEvents (digestScript .sha224 [0x61#8]) ++ [] } : State).inputs =
      scriptEvents (digestScript .sha224 [0x61#8]) ++ [] := by decide

theorem witness_HiddenRegistersNeverLeak :
    SameView (absorbing 3) { absorbing 3 with dp := { done256.dp with t := 64 }, buf := (absorbing 3).buf.set 3 0xFF#8 } ∧
    SameView done224 { done224 with h := done224.h.set 7 0#32, byteCnt := 64#64 } := by
  unfold SameView; decide

theorem witness_InitForgetsTheEarlierComputation :
    (0#2 = 0#2 ∨ 0#2 = 1#2) ∧ (absorbing 63).port = done224.port ∧ (absorbing 63).busData = done224.busData ∧
    (absorbing 63).busRead = done224.busRead ∧ (absorbing 63).inputs = done224.inputs ∧
    (absorbing 63).draws = done224.draws := by decide

theorem witness_CommandIsAcceptedWhenReady :
    (nopPins.rst = false ∧ edgeRefusal nopPins { done224 with port := readyPort } = none ∧ readyPort.flight = none ∧
      presented nopPins { done224 with port := readyPort } = some { cmd := 0#32, data := 0#32 } ∧ readyPort.ready = true) ∧
    (edgeRefusal quietPins { done224 with port := writtenPort true } = none ∧
      presented quietPins { done224 with port := writtenPort true } = some { cmd := 0#32, data := 0#32 }) ∧
    (quietPins.rst = false ∧ edgeRefusal quietPins { done224 with port := readyPort } = none ∧
      ¬(presented quietPins { done224 with port := readyPort } ≠ none ∧ readyPort.ready = true)) ∧
    (busyPort 1).flight = some { cmd := 0x30000000#32, data := 0#32, wait := 1 } ∧
    edgeRefusal nopPins { done224 with port := busyPort 1 } = none := by decide

theorem witness_HandshakeRefinesTheTransaction :
    ({ absorbing 63 with port := readyPort } : State).Inv ∧ readyPort.ready = true ∧ readyPort.flight = none ∧
    readyPort.offer = none ∧ readyPort.write = none := by decide

theorem witness_ChangedOfferIsRefused :
    (offeredPort.offer = some { cmd := 0#32, data := 0#32 } ∧ quietPins.cmdValid = false) ∧
    (∃ t, clockEdge nopPins { done224 with port := readyPort } = .next t) ∧
    (nopPins.rst = false ∧ readyPort.flight = none ∧ nopPins.cmdValid = true ∧ readyPort.ready = true) ∧
    (∃ t, clockEdge resetPins { done224 with port := offeredPort } = .next t) ∧
    ¬(resetPins.rst = false ∧ offeredPort.flight = none ∧ resetPins.cmdValid = true ∧ offeredPort.ready = true) :=
  ⟨by decide, ⟨_, rfl⟩, by decide, ⟨_, rfl⟩, by decide⟩

/-- A base that is a multiple of 4 and of no more. -/
theorem witness_WrapperRegisters : wordAligned 0x00001004#32 = true ∧ readyPort.write = none := by decide

theorem witness_WrapperIssuesTheHeldData :
    wordAligned 0x00001004#32 = true ∧ (readyPort.write = none ∧ readyPort.offer = none) ∧
    ({ absorbing 63 with port := writtenPort false } : State).Inv ∧
    (writtenPort false).write = some { cmd := 0#32, data := 0#32 } := by decide

/-- Each case of an edge while a CMD write waits. -/
theorem witness_CmdWriteWaitsForAcceptance :
    ({ absorbing 63 with port := writtenPort true } : State).Inv ∧ ({ absorbing 63 with port := writtenPort false } : State).Inv ∧
    ({ absorbing 63 with port := { busyPort 0 with write := (writtenPort true).write } } : State).Inv ∧
    ({ absorbing 63 with port := { busyPort 1 with write := (writtenPort true).write } } : State).Inv ∧
    nopPins.cmdValid = true ∧ quietPins.cmdValid = false ∧ quietPins.rst = false :=
  ⟨by decide, by decide, by decide, by decide, by decide⟩

/-- A narrow access, an access to another offset, and a base at which no access is naturally aligned. -/
theorem witness_UndefinedBusAccessIsRefused :
    ¬(BusSize.half = .word ∧ (wrapperAddr 0x1004#32 0x0#4).toNat % 4 = 0 ∧
      (0x0#4 = 0x0#4 ∨ 0x0#4 = 0x4#4 ∨ 0x0#4 = 0x8#4 ∨ 0x0#4 = 0xC#4)) ∧
    ¬(BusSize.word = .word ∧ (wrapperAddr 0x1004#32 0x2#4).toNat % 4 = 0 ∧
      (0x2#4 = 0x0#4 ∨ 0x2#4 = 0x4#4 ∨ 0x2#4 = 0x8#4 ∨ 0x2#4 = 0xC#4)) ∧
    ¬(BusSize.word = .word ∧ (wrapperAddr 0x1002#32 0x4#4).toNat % 4 = 0 ∧
      (0x4#4 = 0x0#4 ∨ 0x4#4 = 0x4#4 ∨ 0x4#4 = 0x8#4 ∨ 0x4#4 = 0xC#4)) := by decide

theorem witness_EnginesShareNothing :
    platformIssue 1 1 (.command 0#32 0#32) [State.reset, State.reset] =
      .next [State.reset, { State.reset with port := { readyPort with rspValid := true } }] ∧
    0 < Config.nEngines ∧ 0 ≠ 1 ∧ wordAligned 0x00001004#32 = true ∧
    ({ done224 with port := offeredPort } : State).Inv ∧ offeredPort.offer = some { cmd := 0#32, data := 0#32 } :=
  ⟨rfl, Nat.succ_pos _, by decide, by decide, by decide, rfl⟩

end Sys2Proof.Tests
end

section
/-! Which commands a host event runs, in which order, and that nothing else changes the engine's registers (20_memory.md R51 to
R53, R65): a fact about all host events follows from this and from a fact about one command. -/

namespace Sys2Proof.Proofs

open Sys2Proof.Machine Sys2Proof.Laws

/-- `t` holds the engine's registers that the commands `l` make of those of `s`, whatever stands around them in `t`. -/
def EngineRuns (l : List Transaction) (s t : State) : Prop :=
  runCommands l s = .next (setAround s t)

theorem runCommands_setAround (a : State) (l : List Transaction) (s : State) :
    runCommands l (setAround a s) = setAroundNext a (runCommands l s) := by
  induction l generalizing s with
  | nil => rfl
  | cons x rest ih =>
    rw [runCommands, runCommands, runCommand_setAround]
    exact andThen_setAroundNext a _ ih

theorem runCommands_append (l l' : List Transaction) (s : State) :
    runCommands (l ++ l') s = andThen (runCommands l s) (runCommands l') := by
  induction l generalizing s with
  | nil => rfl
  | cons x rest ih =>
    simp only [List.cons_append, runCommands]
    rw [andThen_assoc]
    exact andThen_congr fun t _ => ih t

/-- No command runs exactly when the engine's registers are those of before. -/
theorem engineRuns_nil {s t : State} : EngineRuns [] s t ↔ t = setAround t s := by
  constructor <;> intro h
  · have h : s = setAround s t := Host.Outcome.next.inj h
    rw [h]; rfl
  · rw [h]; rfl

theorem engineRuns_one {cmd data : Word} {s t : State} (h : runCommand cmd data s = .next t) :
    EngineRuns [{ cmd := cmd, data := data }] s t := by
  simp only [EngineRuns, runCommands, h, andThen_next]
  exact congrArg Host.Outcome.next (runCommand_around h)

/-- What stands around the registers at the start is of no account. -/
theorem EngineRuns.of_setAround {a : State} {l : List Transaction} {s t : State} (h : EngineRuns l (setAround a s) t) :
    EngineRuns l s t := by
  have k := runCommands_setAround s l (setAround a s)
  rw [show runCommands l (setAround a s) = _ from h] at k
  exact k

theorem EngineRuns.append {l l' : List Transaction} {s t u : State} (h : EngineRuns l s t) (h' : EngineRuns l' t u) :
    EngineRuns (l ++ l') s u := by
  rw [EngineRuns, runCommands_append, show runCommands l s = _ from h, andThen_next, runCommands_setAround,
    show runCommands l' t = _ from h']
  rfl

/-- A property of the engine's registers that every command keeps is kept by every list of commands. -/
theorem EngineRuns.keeps {P : State → Prop} (around : ∀ a s, P (setAround a s) → P s)
    (command : ∀ cmd data s t, P s → runCommand cmd data s = .next t → P t)
    {l : List Transaction} {s t : State} (h : EngineRuns l s t) (hs : P s) : P t := by
  suffices ∀ u, runCommands l s = .next u → P u from around s t (this _ h)
  clear h
  induction l generalizing s with
  | nil => intro u hu; cases hu; exact hs
  | cons x rest ih =>
    intro u hu
    obtain ⟨v, hv, hrest⟩ := andThen_eq_next hu
    exact ih (command _ _ _ _ hs hv) u hrest

/-- The answer to a command: its effect, and the port in the response cycle (20_memory.md R52). -/
theorem respond_eq_next {cmd data : Word} {s t : State} (h : respond cmd data s = .next t) :
    EngineRuns [{ cmd := cmd, data := data }] s t ∧ t.port = answeredPort s.port := by
  obtain ⟨u, hu, ht⟩ := andThen_eq_next h
  cases ht
  have hruns := engineRuns_one hu
  refine ⟨hruns, ?_⟩
  rw [runCommand_around hu]; rfl

theorem drain_none {s : State} (h : s.port.flight = none) : drain s = .next s := by simp [drain, h]

theorem drain_some {s : State} {f : Flight} (h : s.port.flight = some f) : drain s = respond f.cmd f.data s := by
  simp [drain, h]

theorem drain_runs {s t : State} (h : drain s = .next t) : EngineRuns (inFlight s) s t := by
  unfold inFlight
  cases hf : s.port.flight with
  | none => rw [drain_none hf] at h; cases h; exact engineRuns_nil.2 rfl
  | some f => rw [drain_some hf] at h; exact (respond_eq_next h).1

/-- The wait for a CMD write answers the command in flight, if a write waits at all. -/
theorem settle_runs {s t : State} (h : settle s = .next t) :
    EngineRuns (if s.port.write.isSome then inFlight s else []) s t := by
  cases hw : s.port.write with
  | none => rw [settle_none hw] at h; cases h; exact engineRuns_nil.2 rfl
  | some x =>
    rw [settle_some hw] at h
    obtain ⟨u, hu, ht⟩ := andThen_eq_next h
    cases ht
    have hruns := drain_runs hu
    exact hruns

/-- With the answer to what is then in flight, the write's command is answered as well (20_memory.md R65). -/
theorem settle_drain_runs {s t u : State} (h : settle s = .next t) (h' : drain t = .next u) :
    EngineRuns (inFlight s ++ waiting s) s u := by
  have hruns := (settle_runs h).append (drain_runs h')
  cases hw : s.port.write with
  | none =>
    rw [settle_none hw] at h; cases h
    simpa [waiting, hw] using hruns
  | some x =>
    rw [settle_some hw] at h
    obtain ⟨v, -, ht⟩ := andThen_eq_next h
    cases ht
    simpa [waiting, hw, inFlight] using hruns

theorem transact_eq_next {cmd data : Word} {s t : State} (h : transact cmd data s = .next t) :
    ∃ u v, settle { s with port := { s.port with offer := none } } = .next u ∧ drain u = .next v ∧
      respond cmd data v = .next t := by
  unfold transact at h
  split at h
  · cases h
  · obtain ⟨u, hu, h⟩ := andThen_eq_next h
    obtain ⟨v, hv, h⟩ := andThen_eq_next h
    exact ⟨u, v, hu, hv, h⟩

theorem flightEdge_answers {f : Flight} (hf : f.wait = 0) (o : Option Transaction) (s : State) :
    flightEdge f o s = respond f.cmd f.data { s with port := { s.port with offer := o } } := by
  simp [flightEdge, hf]

theorem flightEdge_counts {f : Flight} (hf : f.wait ≠ 0) (o : Option Transaction) (s : State) :
    flightEdge f o s = .next
      { s with
        port := { s.port with
          ready := false, rspValid := false, flight := some { f with wait := f.wait - 1 }, offer := o } } := by
  unfold flightEdge
  split <;> simp_all

/-- An access of the wrapper that answers: the wait for a CMD write, and then nothing of the engine (20_memory.md R63, R65). -/
theorem wrapperWriteAt_eq_next {offset : BitVec 4} {value : Word} {s t : State} (h : wrapperWriteAt offset value s = .next t) :
    t = { s with busData := t.busData } ∨
      (s.port.offer = none ∧ t = { s with port := { s.port with write := some { cmd := value, data := s.busData } } }) := by
  unfold wrapperWriteAt at h
  split at h
  · cases h; exact .inl rfl
  · split at h
    · unfold wrapperIssue at h
      split at h
      · cases h
      · cases h; exact .inr ⟨by simp_all, rfl⟩
    · cases h; exact .inl rfl

theorem wrapperWrite_eq_next {base addr value : Word} {size : BusSize} {s t : State}
    (h : wrapperWrite base addr size value s = .next t) :
    ∃ offset u, settle s = .next u ∧ wrapperWriteAt offset value u = .next t := by
  unfold wrapperWrite at h
  split at h
  · cases h
  · obtain ⟨u, hu, ht⟩ := andThen_eq_next h
    exact ⟨_, u, hu, ht⟩

theorem wrapperRead_eq_next {base addr : Word} {size : BusSize} {s t : State} (h : wrapperRead base addr size s = .next t) :
    ∃ u, settle s = .next u ∧ t = { u with busRead := t.busRead } := by
  unfold wrapperRead at h
  split at h
  · cases h
  · obtain ⟨u, hu, ht⟩ := andThen_eq_next h
    cases ht
    exact ⟨u, hu, rfl⟩

theorem idleEdge_around (p : Pins) (s : State) : idleEdge p s = setAround (idleEdge p s) s := by
  unfold idleEdge
  split <;> rfl

/-- A host event that is no reset acts on the engine's registers by the commands that it answers, in the order of acceptance
(20_memory.md R53, R60). -/
theorem handle_runs {base : Word} {e : HostEvent} {s t : State} (hreset : ∀ p : Pins, e = .edge p → p.rst = false)
    (h : handle base e s = .next t) : EngineRuns (answeredBy e s) s t := by
  cases e with
  | command cmd data =>
    obtain ⟨u, v, hu, hv, ht⟩ := transact_eq_next h
    have hbefore := (settle_drain_runs hu hv).append (respond_eq_next ht).1
    exact hbefore.of_setAround (a := { s with port := { s.port with offer := none } })
  | edge p =>
    obtain ⟨-, ⟨hr, -⟩ | ⟨hr, f, hf, ht⟩ | ⟨-, hf, rfl⟩⟩ := clockEdge_cases h
    · rw [hreset p rfl] at hr; cases hr
    · by_cases hwait : f.wait = 0
      · rw [flightEdge_answers hwait] at ht
        simp only [answeredBy, hf, hr, hwait, and_self, if_true]
        exact (respond_eq_next ht).1.of_setAround (a := { s with port := { s.port with offer := offerOf p } })
      · rw [flightEdge_counts hwait] at ht
        cases ht
        simp only [answeredBy, hf, hwait, and_false, if_false]
        exact engineRuns_nil.2 rfl
    · simp only [answeredBy, hf]
      exact engineRuns_nil.2 (idleEdge_around p s)
  | busWrite addr size value =>
    obtain ⟨offset, u, hu, ht⟩ := wrapperWrite_eq_next h
    have haccess : EngineRuns [] u t := engineRuns_nil.2 <| by
      obtain ht | ⟨-, ht⟩ := wrapperWriteAt_eq_next ht <;> rw [ht] <;> rfl
    simpa [answeredBy] using (settle_runs hu).append haccess
  | busRead addr size =>
    obtain ⟨u, hu, ht⟩ := wrapperRead_eq_next h
    have haccess : EngineRuns [] u t := engineRuns_nil.2 (by rw [ht]; rfl)
    simpa [answeredBy] using (settle_runs hu).append haccess

/-- A step with a host event to take. -/
theorem step_cons {e : HostEvent} {rest : List HostEvent} {s : State} (h : s.inputs = e :: rest) :
    step s = handle (Config.shaBase 0) e { s with inputs := rest } := by
  simp [step, runNextEvent, nextEvent, h]

theorem step_nil {s : State} (h : s.inputs = []) : step s = .next s := by
  simp [step, runNextEvent, nextEvent, h]

end Sys2Proof.Proofs
end

section
/-! The invariant of the registers, split into what commands keep and what the port keeps (10_state.md R25; 20_memory.md R51,
R52). -/

namespace Sys2Proof.Proofs

open Sys2Proof.Machine Sys2Proof.Laws

/-- The part of `State.Inv` that speaks of the engine's registers. -/
structure EngineInv (s : State) : Prop where
  bufLen_le : s.bufLen.val ≤ 63
  bufLen_zero : s.phase ≠ .absorb → s.bufLen.val = 0
  var_idle : s.phase = .idle → s.var = .sha256
  byteCnt_mod : s.byteCnt.toNat % 64 = 0
  err_iff : s.err = false ↔ s.ecode = .none
  ecode_ne : s.ecode ≠ .len

/-- The part of `State.Inv` that speaks of the port. -/
structure PortInv (p : Port) : Prop where
  ready_flight : p.flight.isSome = true → p.ready = false
  response : p.rspValid = true → p.ready = true ∧ p.flight = none
  one_master : p.write.isSome = true → p.offer = none

theorem inv_iff {s : State} : s.Inv ↔ EngineInv s ∧ PortInv s.port := by
  constructor
  · rintro ⟨hle, hzero, hvar, hmod, herr, hcode, hready, hrsp, hone⟩
    exact ⟨⟨hle, hzero, hvar, hmod, herr, hcode⟩, ⟨hready, hrsp, hone⟩⟩
  · rintro ⟨⟨hle, hzero, hvar, hmod, herr, hcode⟩, hready, hrsp, hone⟩
    exact ⟨hle, hzero, hvar, hmod, herr, hcode, hready, hrsp, hone⟩

theorem EngineInv.setAround {a s : State} : EngineInv (setAround a s) ↔ EngineInv s := by
  constructor <;> rintro ⟨hle, hzero, hvar, hmod, herr, hcode⟩ <;> exact ⟨hle, hzero, hvar, hmod, herr, hcode⟩

/-! ### Commands keep the engine's part -/

theorem EngineInv.clearRData {s : State} (h : EngineInv s) : EngineInv (clearRData s) := by
  obtain ⟨hle, hzero, hvar, hmod, herr, hcode⟩ := h
  exact ⟨hle, hzero, hvar, hmod, herr, hcode⟩

/-- Recording an error keeps the invariant: the code recorded is neither none nor LEN (60_exceptions.md R201, R203). -/
theorem EngineInv.raiseError {c : ErrorCode} (hc : c = .illegal ∨ c = .state ∨ c = .range) {s : State} (h : EngineInv s) :
    EngineInv (raiseError c s) := by
  obtain ⟨hle, hzero, hvar, hmod, herr, hcode⟩ := h
  have hc : c ≠ .none ∧ c ≠ .len := by rcases hc with rfl | rfl | rfl <;> decide
  refine ⟨hle, hzero, hvar, hmod, ?_, ?_⟩
  · cases he : s.err <;> simp_all
  · cases he : s.err <;> simp_all

theorem EngineInv.openDigest (v : Variant) (s : State) : EngineInv (openDigest v s) where
  bufLen_le := by simp
  bufLen_zero := by simp
  var_idle := by simp
  byteCnt_mod := by simp
  err_iff := by simp
  ecode_ne := by simp

/-- UPDATE keeps the invariant: BUFLEN stays below 64, and BYTECNT counts whole blocks (43_commands.md R164, R165). -/
theorem EngineInv.absorbBytes {l : List Byte} (hl : l.length ≤ 64) {s t : State} (hphase : s.phase = .absorb)
    (h : absorbBytes l s = .next t) (hs : EngineInv s) : EngineInv t := by
  obtain ⟨hle, hzero, hvar, hmod, herr, hcode⟩ := hs
  obtain ⟨u, hu, hroom, hfull, hframe⟩ := absorbBytes_cases l hle hl
  rw [h] at hu; cases hu
  have hphase' : t.phase = .absorb := by rw [hframe]; exact hphase
  have herr' : t.err = s.err ∧ t.ecode = s.ecode := by rw [hframe]; exact ⟨rfl, rfl⟩
  have hcount : t.bufLen.val ≤ 63 ∧ t.byteCnt.toNat % 64 = 0 := by
    rcases Nat.lt_or_ge (s.bufLen.val + l.length) 64 with hlt | hge
    · obtain ⟨-, hlen, -, hcnt, -⟩ := hroom hlt
      exact ⟨by omega, by rw [hcnt]; exact hmod⟩
    · obtain ⟨-, hlen, -, hcnt⟩ := hfull hge
      exact ⟨by omega, by rw [hcnt, BitVec.toNat_add]; simp; omega⟩
  exact ⟨hcount.1, fun hne => absurd hphase' hne, by simp [hphase'], hcount.2, by rw [herr'.1, herr'.2]; exact herr,
    by rw [herr'.2]; exact hcode⟩

/-- FINISH keeps the invariant: it empties the buffer and enters DONE (43_commands.md R170). -/
theorem EngineInv.finalize {s t : State} (h : finalize s = .next t) (hs : EngineInv s) : EngineInv t := by
  obtain ⟨-, -, -, hmod, herr, hcode⟩ := hs
  rw [finalize_frame h]
  exact ⟨by simp, by simp, by simp, hmod, herr, hcode⟩

theorem runCommand_keeps_engineInv (cmd data : Word) (s t : State) (hs : EngineInv s) (h : runCommand cmd data s = .next t) :
    EngineInv t := by
  rcases runCommand_cases h with ⟨v, var, -, -, rfl⟩ | ⟨-, -, hfin⟩ | ⟨n, d, -, hphase, habs⟩ | ⟨-, rfl⟩ |
    ⟨i, -, -, -, rfl⟩ | ⟨-, -, c, hc, rfl⟩
  · exact .openDigest var _
  · exact hs.clearRData.finalize hfin
  · refine EngineInv.absorbBytes (s := clearRData s) ?_ hphase habs hs.clearRData
    rw [laneBytes_length]
    have := byteCount_le n
    omega
  · exact hs.clearRData
  · obtain ⟨hle, hzero, hvar, hmod, herr, hcode⟩ := hs
    exact ⟨hle, hzero, hvar, hmod, herr, hcode⟩
  · exact hs.raiseError hc

theorem EngineRuns.keeps_engineInv {l : List Transaction} {s t : State} (h : EngineRuns l s t) (hs : EngineInv s) :
    EngineInv t :=
  h.keeps (fun _ _ => EngineInv.setAround.1) runCommand_keeps_engineInv hs

theorem resetEngine_engineInv (p : Pins) (s : State) : EngineInv (resetEngine p s) where
  bufLen_le := by simp
  bufLen_zero := by simp
  var_idle := by simp
  byteCnt_mod := by simp
  err_iff := by simp
  ecode_ne := by simp

/-! ### Host events keep the port's part -/

/-- In the response cycle only the one-master clause says anything (20_memory.md R52). -/
theorem PortInv.answered {p : Port} (h : p.write.isSome = true → p.offer = none) : PortInv (answeredPort p) :=
  ⟨by simp [answeredPort], by simp [answeredPort], h⟩

theorem acceptCommand_portInv (cmd data : Word) (s : State) : PortInv (acceptCommand cmd data s).port :=
  ⟨by simp, by simp, by simp⟩

theorem PortInv.withoutOffer {p : Port} (h : PortInv p) : PortInv { p with offer := none } :=
  ⟨h.ready_flight, h.response, fun _ => rfl⟩

/-- No edge has a meaning on which the pins and a CMD write both present a command (70_reset_and_hazards.md R236). -/
theorem offerOf_of_write {p : Pins} {s : State} (h : edgeRefusal p s = none) (hw : s.port.write.isSome = true) :
    offerOf p = none := by
  obtain ⟨-, hone⟩ := edgeRefusal_eq_none.1 h
  unfold offerOf
  split
  next hv => simp [hone hv] at hw
  next => rfl

theorem respond_portInv {cmd data : Word} {s t : State} (h : respond cmd data s = .next t)
    (hs : s.port.write.isSome = true → s.port.offer = none) : PortInv t.port := by
  rw [(respond_eq_next h).2]
  exact .answered hs

theorem drain_portInv {s t : State} (h : drain s = .next t) (hs : PortInv s.port) : PortInv t.port := by
  cases hf : s.port.flight with
  | none => rw [drain_none hf] at h; cases h; exact hs
  | some f => rw [drain_some hf] at h; exact respond_portInv h hs.one_master

theorem settle_portInv {s t : State} (h : settle s = .next t) (hs : PortInv s.port) : PortInv t.port := by
  cases hw : s.port.write with
  | none => rw [settle_none hw] at h; cases h; exact hs
  | some x =>
    rw [settle_some hw] at h
    obtain ⟨u, -, ht⟩ := andThen_eq_next h
    cases ht
    exact acceptCommand_portInv _ _ _

theorem transact_portInv {cmd data : Word} {s t : State} (h : transact cmd data s = .next t) (hs : PortInv s.port) :
    PortInv t.port := by
  obtain ⟨u, v, hu, hv, ht⟩ := transact_eq_next h
  exact respond_portInv ht (drain_portInv hv (settle_portInv hu hs.withoutOffer)).one_master

theorem flightEdge_portInv {f : Flight} {o : Option Transaction} {s t : State} (h : flightEdge f o s = .next t)
    (ho : s.port.write.isSome = true → o = none) : PortInv t.port := by
  by_cases hwait : f.wait = 0
  · rw [flightEdge_answers hwait] at h
    exact respond_portInv h ho
  · rw [flightEdge_counts hwait] at h
    cases h
    exact ⟨by simp, by simp, ho⟩

theorem idleEdge_portInv (p : Pins) {s : State} (ho : s.port.write.isSome = true → offerOf p = none) :
    PortInv (idleEdge p s).port := by
  unfold idleEdge
  split
  · exact acceptCommand_portInv _ _ _
  · exact ⟨by simp, by simp, ho⟩

theorem clockEdge_portInv {p : Pins} {s t : State} (h : clockEdge p s = .next t) : PortInv t.port := by
  obtain ⟨hno, ⟨-, rfl⟩ | ⟨-, f, -, ht⟩ | ⟨-, -, rfl⟩⟩ := clockEdge_cases h
  · exact ⟨by simp, by simp, offerOf_of_write (s := s) hno⟩
  · exact flightEdge_portInv ht (offerOf_of_write hno)
  · exact idleEdge_portInv p (offerOf_of_write hno)

theorem handle_portInv {base : Word} {e : HostEvent} {s t : State} (h : handle base e s = .next t) (hs : PortInv s.port) :
    PortInv t.port := by
  cases e with
  | command cmd data => exact transact_portInv h hs
  | edge p => exact clockEdge_portInv h
  | busWrite addr size value =>
    obtain ⟨offset, u, hu, ht⟩ := wrapperWrite_eq_next h
    have hport := settle_portInv hu hs
    obtain ht | ⟨hoffer, ht⟩ := wrapperWriteAt_eq_next ht <;> rw [ht]
    · exact hport
    · exact ⟨hport.ready_flight, hport.response, fun _ => hoffer⟩
  | busRead addr size =>
    obtain ⟨u, hu, ht⟩ := wrapperRead_eq_next h
    have hport := settle_portInv hu hs
    rw [ht]
    exact hport

theorem handle_engineInv {base : Word} {e : HostEvent} {s t : State} (h : handle base e s = .next t) (hs : EngineInv s) :
    EngineInv t := by
  by_cases hreset : ∀ p : Pins, e = .edge p → p.rst = false
  · exact (handle_runs hreset h).keeps_engineInv hs
  · obtain ⟨p, rfl, hr⟩ : ∃ p : Pins, e = .edge p ∧ p.rst = true := by simpa using hreset
    obtain ⟨-, ⟨-, rfl⟩ | ⟨hr', -⟩ | ⟨hr', -⟩⟩ := clockEdge_cases h
    · exact resetEngine_engineInv p s
    · rw [hr] at hr'; cases hr'
    · rw [hr] at hr'; cases hr'

theorem handle_keeps_inv {base : Word} {e : HostEvent} {s t : State} (h : handle base e s = .next t) (hs : s.Inv) : t.Inv := by
  obtain ⟨hengine, hport⟩ := inv_iff.1 hs
  exact inv_iff.2 ⟨handle_engineInv h hengine, handle_portInv h hport⟩

/-- Settles O28: a host event acts on the registers by commands or by a reset, and on the port by its own few updates. -/
theorem everyStepKeepsTheInvariant : Obligations.EveryStepKeepsTheInvariant := by
  intro s t hs h
  cases hin : s.inputs with
  | nil => rw [step_nil hin] at h; cases h; exact hs
  | cons e rest =>
    rw [step_cons hin] at h
    exact handle_keeps_inv (s := { s with inputs := rest }) h hs

end Sys2Proof.Proofs
end

section
/-! STATUS field by field (10_state.md R33), and PHASE from command to command (R23). -/

namespace Sys2Proof.Proofs

open Sys2Proof.Machine Sys2Proof.Laws

/-- A field put above a word of `n` bits adds to it. -/
theorem toNat_or_shiftLeft {x y : Word} {a b n : Nat} (hx : x.toNat = a) (hy : y.toNat = b) (ha : a < 2 ^ n)
    (hb : b * 2 ^ n < 2 ^ 32) : (x ||| y <<< n).toNat = a + b * 2 ^ n := by
  subst hx hy
  rw [BitVec.toNat_or, BitVec.toNat_shiftLeft, Nat.mod_eq_of_lt (by rwa [Nat.shiftLeft_eq]), Nat.lor_comm,
    ← Nat.shiftLeft_add_eq_or_of_lt ha, Nat.shiftLeft_eq, Nat.add_comm]

theorem phaseCode_lt (p : Phase) : (phaseCode p).toNat < 3 := by cases p <;> decide

theorem variantCode_toNat (v : Variant) : (variantCode v).toNat = (decide (v = .sha224)).toNat := by cases v <;> rfl

/-- STATUS as a number: no two of its fields overlap (10_state.md R33). -/
theorem statusWord_toNat {s : State} (hlen : s.bufLen.val ≤ 63) :
    (statusWord s).toNat = (phaseCode s.phase).toNat + (decide (s.var = .sha224)).toNat * 2 ^ 2 + s.err.toNat * 2 ^ 3 +
      (errorNumber s.ecode).toNat * 2 ^ 4 + s.bufLen.val * 2 ^ 8 + (busy s).toNat * 2 ^ 14 := by
  have hphase := phaseCode_lt s.phase
  have hvar := Bool.toNat_lt (decide (s.var = .sha224))
  have herr := Bool.toNat_lt s.err
  have hcode := (errorNumber s.ecode).isLt
  have hbusy := Bool.toNat_lt (busy s)
  have two := toNat_or_shiftLeft (x := (phaseCode s.phase).zeroExtend 32) (y := (variantCode s.var).zeroExtend 32) (n := 2)
    (b := (decide (s.var = .sha224)).toNat) (BitVec.toNat_setWidth_of_le (by decide)) (by simp [variantCode_toNat]; omega)
    (by omega) (by omega)
  have three := toNat_or_shiftLeft two (y := (BitVec.ofBool s.err).zeroExtend 32) (b := s.err.toNat) (n := 3)
    (by simp; omega) (by omega) (by omega)
  have four := toNat_or_shiftLeft three (y := (errorNumber s.ecode).zeroExtend 32) (n := 4)
    (BitVec.toNat_setWidth_of_le (by decide)) (by omega) (by omega)
  have five := toNat_or_shiftLeft four (y := BitVec.ofNat 32 s.bufLen.val) (b := s.bufLen.val) (n := 8)
    (by simp; omega) (by omega) (by omega)
  exact toNat_or_shiftLeft five (y := (BitVec.ofBool (busy s)).zeroExtend 32) (b := (busy s).toNat) (n := 14)
    (by simp; omega) (by omega) (by omega)

theorem getLsbD_eq_of_toNat {x : Word} {k : Nat} {b : Bool} (h : x.toNat / 2 ^ k % 2 = b.toNat) : x.getLsbD k = b := by
  rw [BitVec.getLsbD, Nat.testBit_eq_decide_div_mod_eq, h]
  cases b <;> rfl

theorem extractLsb'_eq_of_toNat {x : Word} {k n : Nat} {y : BitVec n} (h : x.toNat / 2 ^ k % 2 ^ n = y.toNat) :
    x.extractLsb' k n = y := by
  apply BitVec.eq_of_toNat_eq
  rw [BitVec.extractLsb'_toNat, Nat.shiftRight_eq_div_pow, h]

/-- Settles O31: each field is a quotient and a remainder of the number that STATUS is. -/
theorem statusFields : Obligations.StatusFields := by
  intro s hlen
  have hstatus := statusWord_toNat hlen
  have hphase := phaseCode_lt s.phase
  have hvar := Bool.toNat_lt (decide (s.var = .sha224))
  have herr := Bool.toNat_lt s.err
  have hcode := (errorNumber s.ecode).isLt
  have hbusy := Bool.toNat_lt (busy s)
  refine ⟨extractLsb'_eq_of_toNat (by omega), getLsbD_eq_of_toNat (by omega), getLsbD_eq_of_toNat (by omega),
    extractLsb'_eq_of_toNat (by omega), ?_, getLsbD_eq_of_toNat (b := busy s) (by omega),
    extractLsb'_eq_of_toNat (by simp; omega), fun hfree => ?_⟩
  · rw [BitVec.extractLsb'_toNat, Nat.shiftRight_eq_div_pow]
    omega
  · simp [statusWord, busy, hfree]

/-- The two low bits of STATUS, whatever BUFLEN is: every other field stands above them (10_state.md R33). -/
theorem statusWord_phase (s : State) : (statusWord s).extractLsb' 0 2 = phaseCode s.phase := by
  ext i hi
  have h3 : i < 3 := by omega
  have h4 : i < 4 := by omega
  have h8 : i < 8 := by omega
  have h14 : i < 14 := by omega
  have h32 : i < 32 := by omega
  simp [statusWord, hi, h3, h4, h8, h14, h32]

/-- PHASE after a command (10_state.md R23). -/
theorem runCommand_phase {cmd data : Word} {s t : State} (h : runCommand cmd data s = .next t) :
    ((∃ v, decode cmd data = .ok (.init v)) → t.phase = .absorb) ∧
    (decode cmd data = .ok .finish → s.phase = .absorb → t.phase = .done) ∧
    ((∀ v, decode cmd data ≠ .ok (.init v)) → ¬(decode cmd data = .ok .finish ∧ s.phase = .absorb) →
      t.phase = s.phase) := by
  rcases runCommand_cases h with ⟨v, var, hd, -, rfl⟩ | ⟨hd, hphase, hfin⟩ | ⟨n, d, hd, -, habs⟩ | ⟨hd, rfl⟩ |
    ⟨i, hd, -, -, rfl⟩ | ⟨hinit, hfin, c, -, rfl⟩
  · simp [hd]
  · rw [finalize_frame hfin]
    simp [hd, hphase]
  · rw [absorbBytes_frame habs]
    simp [hd]
  · simp [hd]
  · simp [hd]
  · exact ⟨fun ⟨v, hv⟩ => absurd hv (hinit v), fun hd hphase => absurd ⟨hd, hphase⟩ hfin, fun _ _ => rfl⟩

/-- Settles O25: a command's PHASE is read off its cases; an event that answers no command runs none. -/
theorem phaseTransitions : Obligations.PhaseTransitions := by
  refine ⟨fun _ _ _ _ h => runCommand_phase h, fun _ _ => rfl, fun base e s t hreset hnone h => ?_, fun s => ?_⟩
  · have hruns := handle_runs hreset h
    rw [hnone] at hruns
    rw [engineRuns_nil.1 hruns]
    rfl
  · rw [statusWord_phase]
    cases s.phase <;> decide

end Sys2Proof.Proofs
end

section
/-! The IV words against the square roots of the first sixteen primes (10_state.md R37). -/

namespace Sys2Proof.Proofs

open Sys2Proof.Machine Sys2Proof.Laws

/-- The first sixteen primes. -/
def firstPrimes : Vector Nat 16 := #v[2, 3, 5, 7, 11, 13, 17, 19, 23, 29, 31, 37, 41, 43, 47, 53]

/-- An entry of the table is a prime, and as many primes are below it as its index says. -/
theorem firstPrimes_counted : ∀ i : Fin 16, firstPrimes[i].Prime ∧ Nat.count Nat.Prime firstPrimes[i] = i.val := by decide

theorem nth_prime (i : Fin 16) : Nat.nth Nat.Prime i.val = firstPrimes[i] := by
  obtain ⟨hprime, hcount⟩ := firstPrimes_counted i
  calc Nat.nth Nat.Prime i.val = Nat.nth Nat.Prime (Nat.count Nat.Prime firstPrimes[i]) := by rw [hcount]
    _ = firstPrimes[i] := Nat.nth_count hprime

/-- The square roots of the first eight primes, to 32 bits after the point. -/
def lowRoots : Vector Nat 8 :=
  #v[0x16a09e667, 0x1bb67ae85, 0x23c6ef372, 0x2a54ff53a,
    0x3510e527f, 0x39b05688c, 0x41f83d9ab, 0x45be0cd19]

/-- The square roots of the next eight primes, to 64 bits after the point. -/
def highRoots : Vector Nat 8 :=
  #v[0x4cbbb9d5dc1059ed8, 0x5629a292a367cd507, 0x59159015a3070dd17, 0x6152fecd8f70e5939,
    0x667332667ffc00b31, 0x68eb44a8768581511, 0x6db0c2e0d64f98fa7, 0x747b5481dbefa4fa4]

/-- Settles O37: the root behind each IV word is in the tables, and squaring shows that it is the root. -/
theorem initialHashesAreSquareRoots : Obligations.InitialHashesAreSquareRoots := by
  intro i
  rw [nth_prime ⟨i.val, by omega⟩, nth_prime ⟨i.val + 8, by omega⟩]
  refine ⟨⟨lowRoots[i], ?_⟩, ⟨highRoots[i], ?_⟩⟩
  · revert i; decide
  · revert i; decide

end Sys2Proof.Proofs
end

section
/-! Two runs that no host can tell apart (10_state.md R24, R39, R40; 43_commands.md R175): every operation of the machine takes
two states with the same view to two answers with the same view. -/

namespace Sys2Proof.Proofs

open Sys2Proof.Machine Sys2Proof.Laws

/-! ### The view and the answers -/

/-- The part of `SameView` that speaks of the engine's registers. -/
structure SameEngine (s t : State) : Prop where
  var : s.var = t.var
  phase : s.phase = t.phase
  bufLen : s.bufLen = t.bufLen
  err : s.err = t.err
  ecode : s.ecode = t.ecode
  rdata : s.rdata = t.rdata
  absorbing : s.phase = .absorb → s.h = t.h ∧ s.byteCnt = t.byteCnt ∧ liveResidual s = liveResidual t
  emitted : s.phase = .done → ∀ i : BitVec 3, i.toNat < nw s.var → hashWord s.h i = hashWord t.h i

/-- The part of `SameView` that speaks of the port, the wrapper and the model's own fields. -/
structure SameAround (s t : State) : Prop where
  port : s.port = t.port
  busData : s.busData = t.busData
  busRead : s.busRead = t.busRead
  inputs : s.inputs = t.inputs
  draws : s.draws = t.draws

theorem sameView_iff {s t : State} : SameView s t ↔ SameEngine s t ∧ SameAround s t := by
  constructor
  · rintro ⟨hvar, hphase, hlen, herr, hcode, hrdata, hport, hdata, hread, hin, hdraws, habs, hdone⟩
    exact ⟨⟨hvar, hphase, hlen, herr, hcode, hrdata, habs, hdone⟩, hport, hdata, hread, hin, hdraws⟩
  · rintro ⟨⟨hvar, hphase, hlen, herr, hcode, hrdata, habs, hdone⟩, hport, hdata, hread, hin, hdraws⟩
    exact ⟨hvar, hphase, hlen, herr, hcode, hrdata, hport, hdata, hread, hin, hdraws, habs, hdone⟩

/-- What stands around the registers may be replaced on both sides by the same. -/
theorem SameEngine.sameView_around {s t a b : State} (h : SameEngine s t) (hab : SameAround a b) :
    SameView (setAround a s) (setAround b t) := by
  obtain ⟨hvar, hphase, hlen, herr, hcode, hrdata, habs, hdone⟩ := h
  exact sameView_iff.2 ⟨⟨hvar, hphase, hlen, herr, hcode, hrdata, habs, hdone⟩, { hab with }⟩

theorem sameView_refl (s : State) : SameView s s :=
  ⟨rfl, rfl, rfl, rfl, rfl, rfl, rfl, rfl, rfl, rfl, rfl, fun _ => ⟨rfl, rfl, rfl⟩, fun _ _ _ => rfl⟩

/-- Operations one after another, each with the same answer on both sides. -/
theorem sameAnswer_andThen {r r' : Result} {f g : State → Result} (h : SameAnswer r r')
    (hfg : ∀ s t, SameView s t → SameAnswer (f s) (g t)) : SameAnswer (andThen r f) (andThen r' g) := by
  cases r <;> cases r'
  case next.next s t => exact hfg s t h
  case fault.fault => exact h
  case refused.refused => exact h
  all_goals exact h.elim

/-- The view shows STATUS (10_state.md R33). -/
theorem statusWord_sameView {s t : State} (h : SameView s t) : statusWord s = statusWord t := by
  obtain ⟨hvar, hphase, hlen, herr, hcode, -, hport, -⟩ := h
  rw [statusWord, statusWord, busy, busy, hvar, hphase, hlen, herr, hcode, hport]

/-! ### Commands -/

theorem clearRData_sameView {s t : State} (h : SameView s t) : SameView (clearRData s) (clearRData t) := by
  obtain ⟨hengine, haround⟩ := sameView_iff.1 h
  exact sameView_iff.2 ⟨{ hengine with rdata := rfl }, { haround with }⟩

theorem raiseError_sameView (c : ErrorCode) {s t : State} (h : SameView s t) :
    SameView (raiseError c s) (raiseError c t) := by
  obtain ⟨hengine, haround⟩ := sameView_iff.1 h
  have hcode : (raiseError c s).ecode = (raiseError c t).ecode := by simp [hengine.err, hengine.ecode]
  exact sameView_iff.2 ⟨{ hengine with err := rfl, ecode := hcode, rdata := rfl }, { haround with }⟩

/-- INIT gives every register that the view shows its value, so it forgets the earlier computation (42_padder.md R154). -/
theorem openDigest_sameView (v : Variant) {s t : State} (hrdata : s.rdata = t.rdata) (haround : SameAround s t) :
    SameView (openDigest v s) (openDigest v t) := by
  have hresidual : liveResidual (openDigest v s) = liveResidual (openDigest v t) := by simp [liveResidual]
  exact sameView_iff.2
    ⟨⟨rfl, rfl, rfl, rfl, rfl, hrdata, fun _ => ⟨rfl, rfl, hresidual⟩, fun hdone => by cases hdone⟩, { haround with }⟩

section Absorbing

/-! In ABSORB the two states have the same H, BYTECNT and residual. -/

variable {s t : State} (h : SameView s t) (hphase : s.phase = .absorb)

include h hphase

theorem compressed_sameView (block : List Byte) :
    SameView
      { s with
        h := feedForward s.h (compressedDatapath s.h block).work
        dp := compressedDatapath s.h block }
      { t with
        h := feedForward t.h (compressedDatapath t.h block).work
        dp := compressedDatapath t.h block } := by
  obtain ⟨hengine, haround⟩ := sameView_iff.1 h
  obtain ⟨hh, hcnt, hresidual⟩ := hengine.absorbing hphase
  refine sameView_iff.2
    ⟨{ hengine with absorbing := fun _ => ⟨?_, hcnt, hresidual⟩, emitted := fun hdone => ?_ }, { haround with }⟩
  · simp only [hh]
  · rw [hphase] at hdone; cases hdone

theorem storeByte_sameView (b : Byte) (room : s.bufLen.val < 64) (room' : t.bufLen.val < 64) :
    SameView (storeByte b s room) (storeByte b t room') := by
  obtain ⟨hengine, haround⟩ := sameView_iff.1 h
  obtain ⟨hh, hcnt, hresidual⟩ := hengine.absorbing hphase
  refine sameView_iff.2
    ⟨{ hengine with
        bufLen := by simp [hengine.bufLen], absorbing := fun _ => ⟨hh, hcnt, ?_⟩, emitted := fun hdone => ?_ },
      { haround with }⟩
  · rw [liveResidual_storeByte, liveResidual_storeByte, hresidual]
  · rw [storeByte_phase, hphase] at hdone; cases hdone

theorem emptyBuffer_sameView : SameView (emptyBuffer s) (emptyBuffer t) := by
  obtain ⟨hengine, haround⟩ := sameView_iff.1 h
  obtain ⟨hh, hcnt, -⟩ := hengine.absorbing hphase
  refine sameView_iff.2
    ⟨{ hengine with bufLen := rfl, absorbing := fun _ => ⟨hh, ?_, ?_⟩, emitted := fun hdone => ?_ }, { haround with }⟩
  · simp [hcnt]
  · simp [liveResidual]
  · rw [emptyBuffer_phase, hphase] at hdone; cases hdone

theorem closeDigest_sameView : SameView (closeDigest s) (closeDigest t) := by
  obtain ⟨hengine, haround⟩ := sameView_iff.1 h
  obtain ⟨hh, -⟩ := hengine.absorbing hphase
  refine sameView_iff.2
    ⟨{ hengine with phase := rfl, bufLen := rfl, absorbing := nofun, emitted := fun _ i _ => ?_ }, { haround with }⟩
  simp [hh]

/-- One byte: the same fault, or the same view, still in ABSORB (43_commands.md R164). -/
theorem absorbByte_sameView (b : Byte) :
    (absorbByte b s = .fault .bufOverrun ∧ absorbByte b t = .fault .bufOverrun) ∨
      ∃ s' t', absorbByte b s = .next s' ∧ absorbByte b t = .next t' ∧ SameView s' t' ∧ s'.phase = .absorb := by
  obtain ⟨hengine, -⟩ := sameView_iff.1 h
  have hlen : t.bufLen.val = s.bufLen.val := congrArg Fin.val hengine.bufLen.symm
  obtain ⟨-, -, hresidual⟩ := hengine.absorbing hphase
  by_cases room : s.bufLen.val < 64
  · have hstored := storeByte_sameView h hphase b room (by omega)
    right
    by_cases full : s.bufLen.val + 1 = 64
    · refine ⟨_, _, absorbByte_full b room full, absorbByte_full b (s := t) (by omega) (by omega), ?_, hphase⟩
      rw [← hresidual]
      exact emptyBuffer_sameView (compressed_sameView hstored hphase _) hphase
    · exact ⟨_, _, absorbByte_room b room full, absorbByte_room b (s := t) (by omega) (by omega), hstored, hphase⟩
  · exact .inl ⟨absorbByte_noRoom b room, absorbByte_noRoom b (by omega)⟩

end Absorbing

theorem absorbBytes_sameAnswer (l : List Byte) {s t : State} (h : SameView s t) (hphase : s.phase = .absorb) :
    SameAnswer (absorbBytes l s) (absorbBytes l t) := by
  induction l generalizing s t with
  | nil => exact h
  | cons b rest ih =>
    obtain ⟨hs, ht⟩ | ⟨s', t', hs, ht, hview, hphase'⟩ := absorbByte_sameView h hphase b
    · rw [absorbBytes, absorbBytes, hs, ht]; rfl
    · rw [absorbBytes, absorbBytes, hs, ht]; exact ih hview hphase'

/-- Blocks are compressed into the same H, and what comes after them finds the same view, still in ABSORB. -/
theorem compressAll_sameAnswer (blocks : List (List Byte)) {f : State → Result}
    (hf : ∀ s t, SameView s t → s.phase = .absorb → SameAnswer (f s) (f t))
    {s t : State} (h : SameView s t) (hphase : s.phase = .absorb) :
    SameAnswer (andThen (compressAll blocks s) f) (andThen (compressAll blocks t) f) := by
  induction blocks generalizing s t with
  | nil => exact hf s t h hphase
  | cons block rest ih =>
    by_cases hb : block.length = 64
    · rw [compressAll, compressAll, compress_whole hb, compress_whole hb]
      exact ih (compressed_sameView h hphase block) hphase
    · rw [compressAll, compressAll, compress_short hb, compress_short hb]
      rfl

theorem finalize_sameAnswer {s t : State} (h : SameView s t) (hphase : s.phase = .absorb) :
    SameAnswer (finalize s) (finalize t) := by
  obtain ⟨hengine, -⟩ := sameView_iff.1 h
  obtain ⟨-, hcnt, hresidual⟩ := hengine.absorbing hphase
  rw [finalize, finalize, hcnt, hresidual, hengine.bufLen]
  exact compressAll_sameAnswer _ (fun _ _ => closeDigest_sameView) h hphase

/-- READ gives out only words that the view shows (43_commands.md R175). -/
theorem exec_read_sameAnswer (i : BitVec 3) {s t : State} (h : SameView s t) :
    SameAnswer (exec (.read i) s) (exec (.read i) t) := by
  obtain ⟨hengine, haround⟩ := sameView_iff.1 h
  have hphase := hengine.phase
  by_cases hp : s.phase = .done
  · rcases Nat.lt_or_ge i.toNat (nw s.var) with hi | hi
    · rw [exec_read hp hi, exec_read (hphase ▸ hp) (hengine.var ▸ hi)]
      exact sameView_iff.2 ⟨{ hengine with rdata := hengine.emitted hp i hi }, { haround with }⟩
    · rw [exec_read_range hp hi, exec_read_range (hphase ▸ hp) (hengine.var ▸ hi)]
      exact raiseError_sameView _ h
  · rw [exec_read_rejected hp, exec_read_rejected (hphase ▸ hp)]
    exact raiseError_sameView _ h

theorem exec_sameAnswer (i : Instr) {s t : State} (h : SameView s t) : SameAnswer (exec i s) (exec i t) := by
  obtain ⟨hengine, haround⟩ := sameView_iff.1 h
  have hphase := hengine.phase
  cases i with
  | nop => exact clearRData_sameView h
  | init v =>
    cases hv : variantOf v with
    | none => rw [exec_init_reserved hv, exec_init_reserved hv]; exact raiseError_sameView _ h
    | some var => rw [exec_init hv, exec_init hv]; exact openDigest_sameView var rfl { haround with }
  | update n data =>
    by_cases hp : s.phase = .absorb
    · rw [exec_update hp, exec_update (hphase ▸ hp)]
      exact absorbBytes_sameAnswer _ (clearRData_sameView h) hp
    · rw [exec_update_rejected hp, exec_update_rejected (hphase ▸ hp)]
      exact raiseError_sameView _ h
  | finish =>
    by_cases hp : s.phase = .absorb
    · rw [exec_finish hp, exec_finish (hphase ▸ hp)]
      exact finalize_sameAnswer (clearRData_sameView h) hp
    · rw [exec_finish_rejected hp, exec_finish_rejected (hphase ▸ hp)]
      exact raiseError_sameView _ h
  | read index => exact exec_read_sameAnswer index h

theorem runCommand_sameAnswer (cmd data : Word) {s t : State} (h : SameView s t) :
    SameAnswer (runCommand cmd data s) (runCommand cmd data t) := by
  cases hd : decode cmd data with
  | ok i => rw [runCommand_ok hd, runCommand_ok hd]; exact exec_sameAnswer i h
  | error r => rw [runCommand_error hd, runCommand_error hd]; exact raiseError_sameView _ h

/-! ### Host events -/

theorem setPort_sameView (p : Port) {s t : State} (h : SameView s t) : SameView { s with port := p } { t with port := p } := by
  obtain ⟨hengine, haround⟩ := sameView_iff.1 h
  exact hengine.sameView_around (a := { s with port := p }) (b := { t with port := p }) { haround with port := rfl }

theorem acceptCommand_sameView (cmd data : Word) {s t : State} (h : SameView s t) :
    SameView (acceptCommand cmd data s) (acceptCommand cmd data t) := by
  obtain ⟨hengine, haround⟩ := sameView_iff.1 h
  have hdraws := haround.draws
  exact hengine.sameView_around (a := acceptCommand cmd data s) (b := acceptCommand cmd data t)
    { haround with port := by simp [hdraws], draws := by simp [hdraws] }

/-- A reset leaves nothing of the engine's registers that could differ (70_reset_and_hazards.md R232). -/
theorem resetEngine_sameView (p : Pins) {s t : State} (h : SameAround s t) : SameView (resetEngine p s) (resetEngine p t) := by
  rw [resetEngine, resetEngine, h.port, h.inputs, h.draws]
  exact sameView_refl _

theorem respond_sameAnswer (cmd data : Word) {s t : State} (h : SameView s t) :
    SameAnswer (respond cmd data s) (respond cmd data t) := by
  refine sameAnswer_andThen (runCommand_sameAnswer cmd data h) fun u v huv => ?_
  obtain ⟨-, haround⟩ := sameView_iff.1 huv
  rw [haround.port]
  exact setPort_sameView _ huv

theorem drain_sameAnswer {s t : State} (h : SameView s t) : SameAnswer (drain s) (drain t) := by
  obtain ⟨-, haround⟩ := sameView_iff.1 h
  have hport := haround.port
  cases hf : t.port.flight with
  | none => rw [drain_none (hport ▸ hf), drain_none hf]; exact h
  | some f => rw [drain_some (hport ▸ hf), drain_some hf]; exact respond_sameAnswer _ _ h

theorem settle_sameAnswer {s t : State} (h : SameView s t) : SameAnswer (settle s) (settle t) := by
  obtain ⟨-, haround⟩ := sameView_iff.1 h
  have hport := haround.port
  cases hw : t.port.write with
  | none => rw [settle_none (hport ▸ hw), settle_none hw]; exact h
  | some x =>
    rw [settle_some (hport ▸ hw), settle_some hw]
    exact sameAnswer_andThen (drain_sameAnswer h) fun _ _ => acceptCommand_sameView _ _

theorem transact_sameAnswer (cmd data : Word) {s t : State} (h : SameView s t) :
    SameAnswer (transact cmd data s) (transact cmd data t) := by
  obtain ⟨-, haround⟩ := sameView_iff.1 h
  rw [transact, transact, haround.port]
  split
  · rfl
  · exact sameAnswer_andThen (settle_sameAnswer (setPort_sameView _ h)) fun _ _ hsettled =>
      sameAnswer_andThen (drain_sameAnswer hsettled) fun _ _ => respond_sameAnswer cmd data

theorem flightEdge_sameAnswer (f : Flight) (o : Option Transaction) {s t : State} (h : SameView s t) :
    SameAnswer (flightEdge f o s) (flightEdge f o t) := by
  obtain ⟨-, haround⟩ := sameView_iff.1 h
  by_cases hwait : f.wait = 0
  · rw [flightEdge_answers hwait, flightEdge_answers hwait, haround.port]
    exact respond_sameAnswer _ _ (setPort_sameView _ h)
  · rw [flightEdge_counts hwait, flightEdge_counts hwait, haround.port]
    exact setPort_sameView _ h

theorem idleEdge_sameView (p : Pins) {s t : State} (h : SameView s t) : SameView (idleEdge p s) (idleEdge p t) := by
  obtain ⟨-, haround⟩ := sameView_iff.1 h
  have hpresented : presented p s = presented p t := by rw [presented, presented, haround.port]
  rw [idleEdge, idleEdge, hpresented, haround.port]
  split
  · exact acceptCommand_sameView _ _ h
  · exact setPort_sameView _ h

theorem clockEdge_sameAnswer (p : Pins) {s t : State} (h : SameView s t) :
    SameAnswer (clockEdge p s) (clockEdge p t) := by
  obtain ⟨-, haround⟩ := sameView_iff.1 h
  have hrefusal : edgeRefusal p s = edgeRefusal p t := by rw [edgeRefusal, edgeRefusal, haround.port]
  rw [clockEdge, clockEdge, hrefusal, haround.port]
  split
  · rfl
  · split
    · exact resetEngine_sameView p haround
    · split
      · exact flightEdge_sameAnswer _ _ h
      · exact idleEdge_sameView p h

theorem wrapperIssue_sameAnswer (value : Word) {s t : State} (h : SameView s t) :
    SameAnswer (wrapperIssue value s) (wrapperIssue value t) := by
  obtain ⟨-, haround⟩ := sameView_iff.1 h
  have hwrite : ({ cmd := value, data := s.busData } : Transaction) = { cmd := value, data := t.busData } := by
    rw [haround.busData]
  rw [wrapperIssue, wrapperIssue, haround.port, hwrite]
  split
  · rfl
  · exact setPort_sameView _ h

theorem wrapperWriteAt_sameAnswer (offset : BitVec 4) (value : Word) {s t : State} (h : SameView s t) :
    SameAnswer (wrapperWriteAt offset value s) (wrapperWriteAt offset value t) := by
  obtain ⟨hengine, haround⟩ := sameView_iff.1 h
  unfold wrapperWriteAt
  split
  · exact hengine.sameView_around (a := { s with busData := value }) (b := { t with busData := value })
      { haround with busData := rfl }
  · split
    · exact wrapperIssue_sameAnswer value h
    · exact h

/-- STATUS and RDATA are all that a bus read gives out of the engine (20_memory.md R63). -/
theorem wrapperReadValue_sameView (offset : BitVec 4) {s t : State} (h : SameView s t) :
    wrapperReadValue offset s = wrapperReadValue offset t := by
  obtain ⟨hengine, haround⟩ := sameView_iff.1 h
  rw [wrapperReadValue, wrapperReadValue, haround.busData, statusWord_sameView h, hengine.rdata]

theorem handle_sameAnswer (base : Word) (e : HostEvent) {s t : State} (h : SameView s t) :
    SameAnswer (handle base e s) (handle base e t) := by
  cases e with
  | command cmd data => exact transact_sameAnswer cmd data h
  | edge p => exact clockEdge_sameAnswer p h
  | busWrite addr size value =>
    change SameAnswer (wrapperWrite base addr size value s) (wrapperWrite base addr size value t)
    unfold wrapperWrite
    split
    · rfl
    · exact sameAnswer_andThen (settle_sameAnswer h) fun _ _ => wrapperWriteAt_sameAnswer _ value
  | busRead addr size =>
    change SameAnswer (wrapperRead base addr size s) (wrapperRead base addr size t)
    unfold wrapperRead
    split
    next => rfl
    next offset _ =>
      refine sameAnswer_andThen (settle_sameAnswer h) fun u v huv => ?_
      obtain ⟨hengine, haround⟩ := sameView_iff.1 huv
      exact hengine.sameView_around (a := { u with busRead := wrapperReadValue offset u })
        (b := { v with busRead := wrapperReadValue offset v }) { haround with busRead := wrapperReadValue_sameView offset huv }

theorem step_sameAnswer {s t : State} (h : SameView s t) : SameAnswer (step s) (step t) := by
  obtain ⟨hengine, haround⟩ := sameView_iff.1 h
  cases hin : s.inputs with
  | nil => rw [step_nil hin, step_nil (haround.inputs ▸ hin)]; exact h
  | cons e rest =>
    rw [step_cons hin, step_cons (haround.inputs ▸ hin)]
    exact handle_sameAnswer _ e <|
      hengine.sameView_around (a := { s with inputs := rest }) (b := { t with inputs := rest }) { haround with inputs := rfl }

/-- Settles O50: the view is kept by every operation, and STATUS and RDATA are part of it. -/
theorem hiddenRegistersNeverLeak : Obligations.HiddenRegistersNeverLeak := by
  intro s t h
  obtain ⟨hengine, -⟩ := sameView_iff.1 h
  exact ⟨step_sameAnswer h, statusWord_sameView h, hengine.rdata⟩

end Sys2Proof.Proofs
end

section
/-! What the proofs about the port and the wrapper share: the engine's registers set apart from what stands around them, and that
every command between two steps completes (10_state.md R25, R33; 43_commands.md R160). -/

namespace Sys2Proof.Proofs

open Sys2Proof.Machine Sys2Proof.Laws

/-! ### The engine's registers alone -/

theorem engineOnly_eq_setAround (s : State) : engineOnly s = setAround State.reset s := rfl

theorem EngineRuns.engineOnly {l : List Transaction} {s t : State} (h : EngineRuns l s t) :
    runCommands l (engineOnly s) = .next (engineOnly t) := by
  rw [engineOnly_eq_setAround, runCommands_setAround, show runCommands l s = _ from h]
  rfl

theorem runCommands_singleton (x : Transaction) (s : State) : runCommands [x] s = runCommand x.cmd x.data s := by
  rw [runCommands]
  cases runCommand x.cmd x.data s <;> rfl

/-- STATUS is a field of the engine's registers, with BUSY set in it by the port (10_state.md R33). -/
theorem statusWord_eq_engineOnly (s : State) :
    statusWord s = statusWord (engineOnly s) ||| (BitVec.ofBool (busy s)).zeroExtend 32 <<< 14 := by
  have hfree : busy (engineOnly s) = false := rfl
  simp [statusWord, hfree]
  rfl

theorem statusWord_congr {s t : State} (hengine : engineOnly t = engineOnly s) (hbusy : busy t = busy s) :
    statusWord t = statusWord s := by
  rw [statusWord_eq_engineOnly t, statusWord_eq_engineOnly s, hengine, hbusy]

/-- Between two states with the same registers STATUS differs by BUSY alone. -/
theorem statusWord_busy {s t : State} (hengine : engineOnly t = engineOnly s) (hs : busy s = false) (ht : busy t = true) :
    statusWord t = statusWord s ||| 0x4000#32 := by
  rw [statusWord_eq_engineOnly t, statusWord_eq_engineOnly s, hengine, hs, ht]
  simp

/-! ### Commands complete -/

/-- A command between two steps, when BUFLEN is below 64, completes (43_commands.md R160, R166). -/
theorem exec_completes (i : Instr) {s : State} (hs : s.bufLen.val ≤ 63) : ∃ t, exec i s = .next t := by
  cases i with
  | nop => exact ⟨_, exec_nop s⟩
  | init v =>
    cases hv : variantOf v with
    | none => exact ⟨_, exec_init_reserved hv s⟩
    | some var => exact ⟨_, exec_init hv s⟩
  | update n data =>
    by_cases hp : s.phase = .absorb
    · obtain ⟨t, ht, -⟩ := absorbBytes_completes (laneBytes n data) (s := clearRData s) hs
      exact ⟨t, by rw [exec_update hp, ht]⟩
    · exact ⟨_, exec_update_rejected hp n data⟩
  | finish =>
    by_cases hp : s.phase = .absorb
    · obtain ⟨t, ht, -⟩ := finalize_completes (s := clearRData s) hs
      exact ⟨t, by rw [exec_finish hp, ht]⟩
    · exact ⟨_, exec_finish_rejected hp⟩
  | read i =>
    by_cases hp : s.phase = .done
    · rcases Nat.lt_or_ge i.toNat (nw s.var) with hi | hi
      · exact ⟨_, exec_read hp hi⟩
      · exact ⟨_, exec_read_range hp hi⟩
    · exact ⟨_, exec_read_rejected hp i⟩

theorem runCommand_completes (cmd data : Word) {s : State} (hs : s.bufLen.val ≤ 63) :
    ∃ t, runCommand cmd data s = .next t := by
  cases hd : decode cmd data with
  | ok i => rw [runCommand_ok hd]; exact exec_completes i hs
  | error r => exact ⟨_, runCommand_error hd s⟩

theorem respond_completes (cmd data : Word) {s : State} (hs : s.bufLen.val ≤ 63) : ∃ t, respond cmd data s = .next t := by
  obtain ⟨t, ht⟩ := runCommand_completes cmd data hs
  exact ⟨_, by rw [respond, ht, andThen_next]⟩

theorem drain_completes {s : State} (hs : s.bufLen.val ≤ 63) : ∃ t, drain s = .next t := by
  cases hf : s.port.flight with
  | none => exact ⟨s, drain_none hf⟩
  | some f => rw [drain_some hf]; exact respond_completes _ _ hs

/-- `s` with its port in the response cycle. -/
def answered (s : State) : State := { s with port := answeredPort s.port }

/-- What stands around the registers is of no account to a command and stays but for the port, which shows the response. -/
theorem respond_setAround (a : State) (cmd data : Word) (s : State) :
    respond cmd data (setAround a s) = setAroundNext (answered a) (runCommand cmd data s) := by
  rw [respond, runCommand_setAround]
  cases runCommand cmd data s <;> rfl

theorem drain_busData {s t : State} (h : drain s = .next t) : t.busData = s.busData := by
  cases hf : s.port.flight with
  | none => rw [drain_none hf] at h; cases h; rfl
  | some f =>
    rw [drain_some hf, ← setAround_self s, respond_setAround] at h
    obtain ⟨u, -, hu⟩ := andThen_eq_next h
    cases hu
    rfl

/-! ### A port that waits for nothing -/

section FreePort

variable {s : State} (hflight : s.port.flight = none) (hoffer : s.port.offer = none) (hwrite : s.port.write = none)

include hflight hoffer hwrite

/-- A transaction on a port that waits for nothing is the answer to its command (20_memory.md R53). -/
theorem transact_free (cmd data : Word) : transact cmd data s = respond cmd data s := by
  have hport : { s with port := { s.port with offer := none } } = s := by rw [← hoffer]
  rw [transact, hoffer, hport, settle_none hwrite, andThen_next, drain_none hflight]
  rfl

/-- The answer to a decoded command leaves the port in the response cycle (20_memory.md R52; log 19). -/
theorem transact_decoded {cmd data : Word} {i : Instr} (hd : decode cmd data = .ok i) :
    transact cmd data s = andThen (exec i s) fun t =>
      .next { t with port := { ready := true, rspValid := true, flight := none, offer := none, write := none } } := by
  rw [transact_free hflight hoffer hwrite, respond, runCommand_ok hd]
  refine andThen_congr fun t ht => ?_
  rw [exec_around ht]
  simp [setAround, answeredPort, hoffer, hwrite]

end FreePort

/-- Settles O10: `handle_runs`, said of the engine's registers alone. -/
theorem eventsActByWholeCommands : Obligations.EventsActByWholeCommands :=
  fun _ _ _ _ hreset h => (handle_runs hreset h).engineOnly

/-- A word that the table decodes is a transaction that decodes. -/
theorem decode_of_decodeTableWord {nbits w : Nat} {i : Instr} (h : decodeTableWord nbits w = some i) :
    decode (tableWords nbits w).1 (tableWords nbits w).2 = .ok i := by
  unfold decodeTableWord at h
  split at h <;> simp_all

/-- Settles O7: a step takes the transaction, and a transaction on a free port is the answer to its command. -/
theorem stepRunsTheDecodedCommand : Obligations.StepRunsTheDecodedCommand := by
  refine ⟨fun s cmd data rest i hin hflight hoffer hwrite hd => ?_, fun s nbits w i hw => ?_⟩
  · rw [step_cons hin]
    exact transact_decoded (s := { s with inputs := rest }) hflight hoffer hwrite hd
  · rw [State.withFetchWord, step_cons (placeCommand_inputs _ _ s)]
    exact transact_decoded (s := { s with port := { s.port with flight := none, offer := none, write := none } }) rfl rfl rfl
      (decode_of_decodeTableWord hw)

end Sys2Proof.Proofs
end

section
/-! One rising edge: what it accepts, what it leaves, and how a CMD write waits for it (20_memory.md R51, R52, R65;
70_reset_and_hazards.md R231, R236). -/

namespace Sys2Proof.Proofs

open Sys2Proof.Machine Sys2Proof.Laws

theorem busy_eq_false {s : State} (h : s.port.flight = none) : busy s = false := by simp [busy, h]

theorem busy_eq_true {s : State} {f : Flight} (h : s.port.flight = some f) : busy s = true := by simp [busy, h]

theorem inFlight_none {s : State} (h : s.port.flight = none) : inFlight s = [] := by simp [inFlight, h]

theorem inFlight_some {s : State} {f : Flight} (h : s.port.flight = some f) :
    inFlight s = [{ cmd := f.cmd, data := f.data }] := by
  simp [inFlight, h]

theorem idleEdge_engineOnly (p : Pins) (s : State) : engineOnly (idleEdge p s) = engineOnly s := by
  rw [idleEdge_around]; rfl

/-- An accepted command is in flight, and BUSY shows it (20_memory.md R51, R52). -/
theorem acceptCommand_accepts (x : Transaction) {s : State} (hs : s.port.flight = none) :
    inFlight (acceptCommand x.cmd x.data s) = [x] ∧
      statusWord (acceptCommand x.cmd x.data s) = statusWord s ||| 0x4000#32 :=
  ⟨rfl, statusWord_busy rfl (busy_eq_false hs) rfl⟩

/-- An idle edge that accepts nothing leaves STATUS. -/
theorem idleEdge_waits_statusWord {p : Pins} {s : State} (h : ¬(presented p s ≠ none ∧ s.port.ready = true))
    (hs : s.port.flight = none) : statusWord (idleEdge p s) = statusWord s := by
  refine statusWord_congr (idleEdge_engineOnly p s) ?_
  rw [busy_eq_false hs, idleEdge_waits h]
  rfl

/-- Settles O53: an idle edge accepts or waits, and an edge with a command in flight that does not answer it counts. -/
theorem commandIsAcceptedWhenReady : Obligations.CommandIsAcceptedWhenReady := by
  refine ⟨fun p s hrst hno hs => ?_, fun p s f hrst hno hf hwait => ?_⟩
  · refine ⟨idleEdge p s, clockEdge_idle hno hrst hs, ?_, idleEdge_engineOnly p s, fun x hx hready => ?_, fun h => ?_⟩
    · unfold idleEdge
      split <;> rfl
    · rw [idleEdge_accepts hx hready]
      exact ⟨rfl, acceptCommand_accepts x hs⟩
    · refine ⟨?_, ?_, idleEdge_waits_statusWord h hs⟩ <;> rw [idleEdge_waits h]
  · exact ⟨_, (clockEdge_flight hno hrst hf).trans (flightEdge_counts hwait (offerOf p) s), rfl, rfl,
      (inFlight_some hf).symm, rfl, statusWord_congr rfl (busy_eq_true hf).symm⟩

/-! ### A CMD write that waits -/

/-- While a CMD write waits and the host holds nothing on the pins, an edge with cmd_valid = 1 is a second master, and any other
has a meaning (70_reset_and_hazards.md R236; log 20). -/
theorem edgeRefusal_of_write {p : Pins} {s : State} {x : Transaction} (hw : s.port.write = some x)
    (hoffer : s.port.offer = none) : edgeRefusal p s = if p.cmdValid = true then some .twoMasters else none := by
  simp [edgeRefusal, hoffer, hw, breaksHold]

/-- An edge that answers the command in flight: its whole effect, in the response cycle; a CMD write still waits. -/
theorem flightEdge_completes {f : Flight} (hwait : f.wait = 0) (o : Option Transaction) {s : State} (hs : s.bufLen.val ≤ 63) :
    ∃ t, flightEdge f o s = .next t ∧ t.port = answeredPort { s.port with offer := o } ∧
      runCommand f.cmd f.data (engineOnly s) = .next (engineOnly t) := by
  obtain ⟨t, ht⟩ := respond_completes f.cmd f.data (s := { s with port := { s.port with offer := o } }) hs
  obtain ⟨hruns, hport⟩ := respond_eq_next ht
  refine ⟨t, by rw [flightEdge_answers hwait, ht], hport, ?_⟩
  have hengine := hruns.engineOnly
  rwa [runCommands_singleton] at hengine

/-- Settles O58: each clause is one case of an edge, at which the pins present nothing. -/
theorem cmdWriteWaitsForAcceptance : Obligations.CmdWriteWaitsForAcceptance := by
  intro p s x hs hw
  obtain ⟨hengine, hport⟩ := inv_iff.1 hs
  have hno := edgeRefusal_of_write (p := p) hw (hport.one_master (by rw [hw]; rfl))
  refine ⟨fun hv => clockEdge_refused (by rw [hno, if_pos hv]), fun hv => ?_⟩
  rw [if_neg (by simp [hv])] at hno
  cases hrst : p.rst with
  | true =>
    refine ⟨_, clockEdge_reset hno hrst, fun _ => ⟨hw, rfl, ?_⟩, nofun, nofun, nofun⟩
    have hreset : statusWord State.reset = 0#32 := by decide
    rw [← hreset]
    exact statusWord_congr rfl rfl
  | false =>
    cases hf : s.port.flight with
    | none =>
      refine ⟨_, clockEdge_idle hno hrst hf, nofun, fun _ _ hready => ?_, fun _ _ hready => ?_, nofun⟩
      · rw [idleEdge_accepts (presented_write hw p) hready]
        obtain ⟨hflight, hstatus⟩ := acceptCommand_accepts x hf
        exact ⟨rfl, hflight, rfl, rfl, hstatus⟩
      · have hwaits : ¬(presented p s ≠ none ∧ s.port.ready = true) := by simp [hready]
        refine ⟨?_, ?_, ?_, idleEdge_engineOnly p s, idleEdge_waits_statusWord hwaits hf⟩ <;> rw [idleEdge_waits hwaits]
        · exact hw
        · rfl
    | some f =>
      rw [clockEdge_flight hno hrst hf]
      by_cases hwait : f.wait = 0
      · obtain ⟨t, ht, htport, hruns⟩ := flightEdge_completes hwait (offerOf p) hengine.bufLen_le
        refine ⟨t, ht, nofun, nofun, nofun, fun _ g hg => ?_⟩
        cases hg
        refine ⟨by rw [htport]; exact hw, fun hne => absurd hwait hne, fun _ => ⟨inFlight_none ?_, ?_, ?_, hruns⟩⟩ <;>
          rw [htport] <;> rfl
      · refine ⟨_, flightEdge_counts hwait _ s, nofun, nofun, nofun, fun _ g hg => ?_⟩
        cases hg
        exact ⟨hw, fun _ => ⟨(inFlight_some hf).symm, rfl, rfl⟩, fun hzero => absurd hzero hwait⟩

end Sys2Proof.Proofs
end

section
/-! The edges from the acceptance of a command to its answer, and the transaction that they refine (20_memory.md R51 to R53, R60;
70_reset_and_hazards.md R245). -/

namespace Sys2Proof.Proofs

open Sys2Proof.Machine Sys2Proof.Laws

/-! ### Runs of steps -/

theorem coreRun_succ {M : Host.Core} {s t : M.State} (h : M.step s = .next t) (n : Nat) : M.run (n + 1) s = M.run n t := by
  simp only [Host.Core.run, h]

theorem run_succ {s t : State} (h : step s = .next t) (n : Nat) :
    Host.Core.run Sys2Proof.core (n + 1) s = Host.Core.run Sys2Proof.core n t :=
  coreRun_succ (M := Sys2Proof.core) h n

theorem run_one {s t : State} (h : step s = .next t) : Host.Core.run Sys2Proof.core 1 s = .next t :=
  run_succ h 0

/-! ### A command in flight on an otherwise quiet port -/

/-- `s` once a command is accepted that `n` more edges leave unanswered, with the host's events `events` still to come. -/
def executing (cmd data : Word) (n : Nat) (events : List HostEvent) (s : State) : State :=
  { s with
    port :=
      { ready := false, rspValid := false, flight := some { cmd := cmd, data := data, wait := n }, offer := none,
        write := none }
    inputs := events
    draws := s.draws + 1 }

/-- The pins of a host that presents nothing once its command is accepted. -/
def releasedPins (cmd data : Word) : Pins := { rst := false, cmdValid := false, cmd := cmd, data := data }

/-- A command in flight shows BUSY beside the STATUS of before (20_memory.md R52). -/
theorem statusWord_executing (cmd data : Word) (n : Nat) (events : List HostEvent) {s : State} (hs : s.port.flight = none) :
    statusWord (executing cmd data n events s) = statusWord s ||| 0x4000#32 :=
  statusWord_busy rfl (busy_eq_false hs) rfl

theorem step_executing (cmd data : Word) (n : Nat) (rest : List HostEvent) (s : State) :
    step (executing cmd data n (.edge (releasedPins cmd data) :: rest) s) =
      flightEdge { cmd := cmd, data := data, wait := n } none (executing cmd data n rest s) := by
  rw [step_cons rfl]
  exact clockEdge_flight (p := releasedPins cmd data) (s := executing cmd data n rest s) rfl rfl rfl

/-- An edge before the last one only counts (20_memory.md R52). -/
theorem step_executing_counts (cmd data : Word) (n : Nat) (rest : List HostEvent) (s : State) :
    step (executing cmd data (n + 1) (.edge (releasedPins cmd data) :: rest) s) = .next (executing cmd data n rest s) := by
  rw [step_executing, flightEdge_counts (Nat.succ_ne_zero n)]
  rfl

/-- The last edge answers the command (20_memory.md R52). -/
theorem step_executing_answers (cmd data : Word) (rest : List HostEvent) (s : State) :
    step (executing cmd data 0 (.edge (releasedPins cmd data) :: rest) s) = respond cmd data (executing cmd data 0 rest s) := by
  rw [step_executing, flightEdge_answers rfl]
  rfl

theorem run_executing_counts (cmd data : Word) (j n : Nat) (rest : List HostEvent) (s : State) :
    Host.Core.run Sys2Proof.core j (executing cmd data (j + n) (List.replicate j (.edge (releasedPins cmd data)) ++ rest) s) =
      .next (executing cmd data n rest s) := by
  induction j with
  | zero => rw [Nat.zero_add]; rfl
  | succ j ih =>
    rw [Nat.succ_add, List.replicate_succ, List.cons_append]
    exact (run_succ (step_executing_counts cmd data _ _ s) j).trans ih

/-- The states between the acceptance and the answer (20_memory.md R52). -/
theorem run_executing_before (cmd data : Word) {j n : Nat} (hj : j ≤ n) (rest : List HostEvent) (s : State) :
    Host.Core.run Sys2Proof.core j
        (executing cmd data n (List.replicate (n + 1) (.edge (releasedPins cmd data)) ++ rest) s) =
      .next (executing cmd data (n - j) (List.replicate (n + 1 - j) (.edge (releasedPins cmd data)) ++ rest) s) := by
  have hsplit : List.replicate (n + 1) (HostEvent.edge (releasedPins cmd data)) =
      List.replicate j (.edge (releasedPins cmd data)) ++ List.replicate (n + 1 - j) (.edge (releasedPins cmd data)) := by
    rw [List.replicate_append_replicate, Nat.add_sub_cancel' (by omega)]
  have hcounts := run_executing_counts cmd data j (n - j)
    (List.replicate (n + 1 - j) (.edge (releasedPins cmd data)) ++ rest) s
  rwa [← List.append_assoc, ← hsplit, Nat.add_sub_cancel' hj] at hcounts

theorem run_executing_answers {cmd data : Word} {rest : List HostEvent} {s t : State}
    (h : respond cmd data (executing cmd data 0 rest s) = .next t) (n : Nat) :
    Host.Core.run Sys2Proof.core (n + 1)
      (executing cmd data n (List.replicate (n + 1) (.edge (releasedPins cmd data)) ++ rest) s) = .next t := by
  induction n with
  | zero => exact run_one ((step_executing_answers cmd data rest s).trans h)
  | succ n ih =>
    rw [List.replicate_succ, List.cons_append]
    exact (run_succ (step_executing_counts cmd data _ _ s) _).trans ih

/-- An edge at a ready port accepts the command presented, and draws its latency (20_memory.md R51; log 8). -/
theorem step_accepts {s : State} (hready : s.port.ready = true) (hflight : s.port.flight = none) (hoffer : s.port.offer = none)
    (hwrite : s.port.write = none) (cmd data : Word) (rest : List HostEvent) :
    step { s with inputs := .edge { rst := false, cmdValid := true, cmd := cmd, data := data } :: rest } =
      .next (executing cmd data (Config.extraCycles (latencyClass cmd data) s.draws) rest s) := by
  let t : State := { s with inputs := rest }
  have hno : edgeRefusal { rst := false, cmdValid := true, cmd := cmd, data := data } t = none :=
    edgeRefusal_eq_none.2 ⟨by rw [show t.port.offer = none from hoffer]; rfl, fun _ => hwrite⟩
  have hidle := clockEdge_idle hno rfl hflight
  rw [idleEdge_accepts (s := t) (presented_pins (s := t) hwrite _) hready] at hidle
  rw [step_cons rfl]
  exact hidle

/-- Settles O54: the first edge accepts, the edges between count, and the last gives the transaction's own answer. -/
theorem handshakeRefinesTheTransaction : Obligations.HandshakeRefinesTheTransaction := by
  intro cmd data s rest hs hready hflight hoffer hwrite
  obtain ⟨hengine, -⟩ := inv_iff.1 hs
  obtain ⟨t, ht⟩ := runCommand_completes cmd data hengine.bufLen_le
  have hanswer (a : State) : respond cmd data (setAround a s) = .next (setAround (answered a) t) := by
    rw [respond_setAround, ht]; rfl
  have haccepts := step_accepts hready hflight hoffer hwrite cmd data
  generalize Config.extraCycles (latencyClass cmd data) s.draws = extra at haccepts
  refine ⟨extra + 1, setAround (answered (executing cmd data 0 rest s)) t, setAround (answered { s with inputs := rest }) t,
    by omega, ?_, ?_, ?_, fun j hj => ?_⟩
  · rw [Nat.add_comm 1]
    exact (run_succ (haccepts _) _).trans (run_executing_answers (hanswer (executing cmd data 0 rest s)) extra)
  · rw [step_cons rfl]
    exact (transact_free (s := { s with inputs := rest }) hflight hoffer hwrite cmd data).trans
      (hanswer { s with inputs := rest })
  · simp [setAround, answered, executing, answeredPort, hoffer, hwrite]
  · have hbefore := run_executing_before cmd data (Nat.le_of_lt_succ hj) rest s
    have hstatus := statusWord_executing cmd data (extra - j)
      (List.replicate (extra + 1 - j) (.edge (releasedPins cmd data)) ++ rest) hflight
    rw [Nat.add_comm 1]
    exact ⟨_, (run_succ (haccepts _) j).trans hbefore, rfl, rfl, rfl, hstatus⟩

end Sys2Proof.Proofs
end

section
/-! The bus wrapper: where an access lands, what it waits for and what it then does (20_memory.md R63 to R65), and engines that
share nothing (R69; 60_exceptions.md R213). -/

namespace Sys2Proof.Proofs

open Sys2Proof.Machine Sys2Proof.Laws

/-! ### Accesses at an address of the window -/

/-- A write of a defined offset: the wait for a CMD write, and then the effect of the offset (20_memory.md R63, R65). -/
theorem handle_busWrite_aligned {base : Word} (hbase : wordAligned base = true) {offset : BitVec 4}
    (hoffset : offset.toNat % 4 = 0) (value : Word) (s : State) :
    handle base (.busWrite (wrapperAddr base offset) .word value) s = andThen (settle s) (wrapperWriteAt offset value) := by
  rw [handle, wrapperWrite, wrapperOffset_aligned hbase, if_pos hoffset]

theorem handle_busRead_aligned {base : Word} (hbase : wordAligned base = true) {offset : BitVec 4}
    (hoffset : offset.toNat % 4 = 0) (s : State) :
    handle base (.busRead (wrapperAddr base offset) .word) s =
      andThen (settle s) fun t => .next { t with busRead := wrapperReadValue offset t } := by
  rw [handle, wrapperRead, wrapperOffset_aligned hbase, if_pos hoffset]

/-- The four offsets of the wrapper are the multiples of 4 in its window (20_memory.md R63). -/
theorem offset_aligned_iff (offset : BitVec 4) :
    offset.toNat % 4 = 0 ↔ offset = 0x0#4 ∨ offset = 0x4#4 ∨ offset = 0x8#4 ∨ offset = 0xC#4 := by
  revert offset; decide

/-- Settles O59: an address of the window decodes to an offset only for the accesses that the statement leaves out. -/
theorem undefinedBusAccessIsRefused : Obligations.UndefinedBusAccessIsRefused := by
  intro base offset size value s h
  rw [← wordAligned_iff, ← offset_aligned_iff] at h
  have hrefused : wrapperOffset base (wrapperAddr base offset) size = .error .busUndefined := by
    rw [wrapperOffset_wrapperAddr, if_neg h]
  simp [handle, wrapperWrite, wrapperRead, hrefused]

/-- Settles O56: with no CMD write to wait for, an access is the effect of its offset alone. -/
theorem wrapperRegisters : Obligations.WrapperRegisters := by
  refine ⟨fun base value s hbase hw => ?_, fun base s hbase hw => ?_, rfl, rfl⟩
  · have hwrite (offset : BitVec 4) (h : offset.toNat % 4 = 0) :
        handle base (.busWrite (wrapperAddr base offset) .word value) s = wrapperWriteAt offset value s := by
      rw [handle_busWrite_aligned hbase h, settle_none hw, andThen_next]
    exact ⟨hwrite 0x0#4 rfl, hwrite 0x8#4 rfl, hwrite 0xC#4 rfl⟩
  · have hread (offset : BitVec 4) (h : offset.toNat % 4 = 0) :
        handle base (.busRead (wrapperAddr base offset) .word) s = .next { s with busRead := wrapperReadValue offset s } := by
      rw [handle_busRead_aligned hbase h, settle_none hw, andThen_next]
    exact ⟨hread 0x0#4 rfl, hread 0x4#4 rfl, hread 0x8#4 rfl, hread 0xC#4 rfl⟩

/-! ### The wait for a CMD write -/

/-- The wait for a CMD write completes: the command in flight is answered, and the write's is then in flight, alone
(20_memory.md R51, R65). -/
theorem settle_completes {s : State} {x : Transaction} (hs : s.Inv) (hw : s.port.write = some x) :
    ∃ t, settle s = .next t ∧ t.Inv ∧ runCommands (inFlight s) (engineOnly s) = .next (engineOnly t) ∧
      inFlight t = [x] ∧ busy t = true ∧ t.port.write = none ∧ t.busData = s.busData := by
  obtain ⟨hengine, hport⟩ := inv_iff.1 hs
  obtain ⟨u, hu⟩ := drain_completes hengine.bufLen_le
  have hsettle : settle s = .next (acceptCommand x.cmd x.data u) := by rw [settle_some hw, hu, andThen_next]
  have hruns := settle_runs hsettle
  rw [hw, Option.isSome_some, if_pos rfl] at hruns
  have hdata := drain_busData hu
  exact ⟨_, hsettle, inv_iff.2 ⟨hruns.keeps_engineInv hengine, acceptCommand_portInv _ _ _⟩, hruns.engineOnly, rfl,
    rfl, rfl, hdata⟩

/-- STATUS shows BUSY in bit 14 (10_state.md R33). -/
theorem statusWord_getLsbD_busy {s : State} (hs : s.Inv) : (statusWord s).getLsbD 14 = busy s := by
  obtain ⟨hengine, -⟩ := inv_iff.1 hs
  obtain ⟨-, -, -, -, -, hbusy, -⟩ := statusFields s hengine.bufLen_le
  exact hbusy

/-- A write of CMD presents its command, unless the direct port already presents one (20_memory.md R65,
70_reset_and_hazards.md R236; log 20). -/
theorem handle_busWrite_cmd {base : Word} (hbase : wordAligned base = true) {s : State} (hw : s.port.write = none)
    (value : Word) : handle base (.busWrite (wrapperAddr base 0x4#4) .word value) s = wrapperIssue value s := by
  rw [handle_busWrite_aligned hbase rfl, settle_none hw]
  rfl

/-- Settles O57: an access after the write begins with the wait, in whose end state there is nothing left to wait for. -/
theorem wrapperIssuesTheHeldData : Obligations.WrapperIssuesTheHeldData := by
  refine ⟨fun base value s hbase hw hoffer => ?_, fun base value offset s x hbase hoffset hs hw => ?_⟩
  · rw [handle_busWrite_cmd hbase hw]
    simp [wrapperIssue, hoffer]
  · obtain ⟨t, hsettle, hinv, hruns, hflight, hbusy, hfree, hdata⟩ := settle_completes hs hw
    have haligned := (offset_aligned_iff offset).2 hoffset
    refine ⟨t, hinv, hruns, hflight, (statusWord_getLsbD_busy hinv).trans hbusy, hfree, hdata, ?_, ?_⟩
    · rw [handle_busWrite_aligned hbase haligned, handle_busWrite_aligned hbase haligned, hsettle, settle_none hfree]
    · rw [handle_busRead_aligned hbase haligned, handle_busRead_aligned hbase haligned, hsettle, settle_none hfree]

/-! ### Engines of a platform -/

/-- An event that a platform takes is an event that one of its engines takes, and only that engine is replaced (20_memory.md
R69). -/
theorem platformIssue_eq_next {k : Nat} {e : HostEvent} {p q : Platform} (h : platformIssue k k e p = .next q) :
    ∃ s t, p[k]? = some s ∧ handle (Config.shaBase k) e s = .next t ∧ q = p.set k t := by
  rw [platformIssue, if_pos rfl] at h
  split at h
  next => cases h
  next s hs =>
    split at h
    next t ht => cases h; exact ⟨s, t, hs, ht, rfl⟩
    next => cases h
    next => cases h

/-- Settles O60: an event replaces its own engine in the list; of two masters on one port the invariant leaves one. -/
theorem enginesShareNothing : Obligations.EnginesShareNothing := by
  refine ⟨fun k e p q h => ?_, fun k hk => ?_, fun host k e p hne => ?_, fun base value s x hbase hs hoffer => ?_⟩
  · obtain ⟨s, t, hs, ht, rfl⟩ := platformIssue_eq_next h
    obtain ⟨hk, -⟩ := List.getElem?_eq_some_iff.1 hs
    exact ⟨List.length_set, fun j hj => List.getElem?_set_ne hj.symm, s, t, hs, List.getElem?_set_self hk, ht⟩
  · rw [platformReset, List.getElem?_replicate, if_pos hk]
  · rw [platformIssue, if_neg hne]
  · obtain ⟨-, hport⟩ := inv_iff.1 hs
    have hw : s.port.write = none := by
      by_contra hwrite
      rw [hport.one_master (Option.isSome_iff_ne_none.2 hwrite)] at hoffer
      cases hoffer
    rw [handle_busWrite_cmd hbase hw]
    simp [wrapperIssue, hoffer]

end Sys2Proof.Proofs
end

section
/-! The decoder and the encoder against each other and against the opcode map (30_encoding.md R81 to R91). -/

namespace Sys2Proof.Proofs

open Sys2Proof.Machine Sys2Proof.Laws

/-- Every UPDATE word carries the DATA word it comes with (30_encoding.md R89). -/
theorem decode_updateWord (n : BitVec 2) (data : Word) :
    decode (0x20000000#32 ||| n.zeroExtend 32) data = .ok (.update n data) := by
  have hword : ∀ m : BitVec 2, (opField (0x20000000#32 ||| m.zeroExtend 32)).toNat = 2 ∧
      (0x20000000#32 ||| m.zeroExtend 32).extractLsb' 2 26 = 0 ∧
      argField (0x20000000#32 ||| m.zeroExtend 32) = m := by decide
  obtain ⟨hop, hreserved, harg⟩ := hword n
  simp [decode, hop, hreserved, harg]

theorem decode_encode {i : Instr} (hi : i.wellFormed = true) : decode (encodeCmd i) (encodeData i) = .ok i := by
  cases i with
  | nop => rfl
  | init v => revert hi; revert v; decide
  | update n data => exact decode_updateWord n data
  | finish => rfl
  | read j => revert j; decide

/-- Settles O2: `decode_encode`, on the pair of words. -/
theorem decodeOfEncodeIsCommand : Obligations.DecodeOfEncodeIsCommand :=
  fun _ hi => decode_encode hi

/-- Settles O3: each answer of the decoder stands in `decode_cases` with the word that gives it. -/
theorem encodeOfDecodeIsWord : Obligations.EncodeOfDecodeIsWord := by
  intro cmd data i h
  rcases decode_cases cmd data with ⟨rfl, hd⟩ | ⟨v, hv, rfl, hd⟩ | ⟨n, rfl, hd⟩ | ⟨rfl, hd⟩ | ⟨j, rfl, hd⟩ | ⟨r, hd⟩ <;>
    rw [hd] at h <;> cases h
  · exact ⟨rfl, rfl, nofun⟩
  · exact ⟨by simpa [Instr.wellFormed] using hv, rfl, nofun⟩
  · exact ⟨rfl, rfl, fun m d hm => by cases hm; rfl⟩
  · exact ⟨rfl, rfl, nofun⟩
  · exact ⟨rfl, rfl, nofun⟩

/-- A word that decodes to no command is rejected. -/
theorem decode_eq_error {cmd data : Word} (h : ∀ i, decode cmd data ≠ .ok i) : ∃ r, decode cmd data = .error r := by
  cases hd : decode cmd data with
  | ok i => exact absurd hd (h i)
  | error r => exact ⟨r, rfl⟩

/-! ### The rows of the opcode map -/

/-- `EncodedFields`, for every command. -/
theorem encodedFields (i : Instr) : EncodedFields.Statement i := by
  cases i with
  | nop => exact EncodedFields.nop
  | init v => exact EncodedFields.init v
  | update n d => exact EncodedFields.update n d
  | finish => exact EncodedFields.finish
  | read j => exact EncodedFields.read j

/-- The row of the command that a word decodes to selects the word. -/
theorem exists_row_of_decode {cmd data : Word} {i : Instr} (h : decode cmd data = .ok i) :
    ∃ r ∈ opcodeTable, r.selects cmd = true := by
  obtain ⟨hwf, rfl, -⟩ := encodeOfDecodeIsWord cmd data i h
  obtain ⟨-, -, hselects⟩ := encodedFields i
  obtain ⟨r, hr, -, hcmd⟩ := hselects hwf
  exact ⟨r, hr, hcmd⟩

/-- A word that a mask selects is the pattern with the low bits of the word, which the mask leaves open. -/
theorem eq_or_zeroExtend_of_masked {cmd mask pattern : Word} (k : Nat) (hmask : ~~~mask = (BitVec.allOnes k).zeroExtend 32)
    (h : cmd &&& mask = pattern) : cmd = pattern ||| (cmd.extractLsb' 0 k).zeroExtend 32 := by
  have hlow : cmd &&& ~~~mask = (cmd.extractLsb' 0 k).zeroExtend 32 := by
    rw [hmask]
    ext j hj
    simp [hj, Bool.and_comm]
  rw [← h, ← hlow, ← BitVec.and_or_distrib_left, BitVec.or_not_self, BitVec.and_allOnes]

/-- Only UPDATE carries DATA (30_encoding.md R89). -/
theorem decode_ignores_data {cmd : Word} (h : opField cmd ≠ 2#4) (d d' : Word) : decode cmd d = decode cmd d' := by
  have hop : (opField cmd).toNat ≠ 2 := fun h2 => h (BitVec.eq_of_toNat_eq h2)
  unfold decode
  split
  case h_3 h2 => exact absurd h2 hop
  all_goals rfl

/-- The CMD word of a command is legal with every DATA word, and stands for the same row. -/
theorem decode_encodeCmd {i : Instr} (hi : i.wellFormed = true) (data : Word) :
    ∃ i', decode (encodeCmd i) data = .ok i' ∧ mnemonicOf i' = mnemonicOf i := by
  cases i with
  | update n d => exact ⟨_, decode_updateWord n data, rfl⟩
  | nop => exact ⟨.nop, rfl, rfl⟩
  | finish => exact ⟨.finish, rfl, rfl⟩
  | init v =>
    have hop : ∀ v, opField (encodeCmd (.init v)) ≠ 2#4 := by decide
    exact ⟨_, (decode_ignores_data (hop v) data 0).trans (decode_encode hi), rfl⟩
  | read j =>
    have hop : ∀ j, opField (encodeCmd (.read j)) ≠ 2#4 := by decide
    exact ⟨_, (decode_ignores_data (hop j) data 0).trans (decode_encode hi), rfl⟩

/-- A word that a row selects is the CMD word of one of the row's commands. -/
theorem encodeCmd_of_selects {r : OpcodeRow} (hr : r ∈ opcodeTable) {cmd : Word} (h : r.selects cmd = true) :
    ∃ i : Instr, i.wellFormed = true ∧ encodeCmd i = cmd ∧ mnemonicOf i = r.mnemonic := by
  have hmasked : cmd &&& r.mask = r.pattern := by simpa [OpcodeRow.selects] using h
  simp only [opcodeTable, List.mem_cons, List.not_mem_nil, or_false] at hr
  rcases hr with rfl | rfl | rfl | rfl | rfl
  · exact ⟨.nop, rfl, (BitVec.and_allOnes.symm.trans hmasked).symm, rfl⟩
  · have hinit : ∀ x : BitVec 1, (Instr.init (x.zeroExtend 2)).wellFormed = true ∧
        encodeCmd (.init (x.zeroExtend 2)) = 0x10000000#32 ||| x.zeroExtend 32 := by decide
    obtain ⟨hwf, henc⟩ := hinit (cmd.extractLsb' 0 1)
    exact ⟨_, hwf, henc.trans (eq_or_zeroExtend_of_masked 1 (by decide) hmasked).symm, rfl⟩
  · exact ⟨.update (argField cmd) 0, rfl, (eq_or_zeroExtend_of_masked 2 (by decide) hmasked).symm, rfl⟩
  · exact ⟨.finish, rfl, (BitVec.and_allOnes.symm.trans hmasked).symm, rfl⟩
  · exact ⟨.read (indexField cmd), rfl, (eq_or_zeroExtend_of_masked 3 (by decide) hmasked).symm, rfl⟩


/-! ### Legality -/

theorem exists_ok_ite {p : Prop} [Decidable p] {x : Instr} {r : Illegal} :
    (∃ i, (if p then .ok x else .error r : Except Illegal Instr) = .ok i) ↔ p := by
  by_cases hp : p <;> simp [hp]

/-- The reserved bits of an opcode without an operand (30_encoding.md R87). -/
theorem legal_iff_of_plain {cmd data : Word} (h : opField cmd = 0#4 ∨ opField cmd = 3#4) :
    (∃ i, decode cmd data = .ok i) ↔ cmd.extractLsb' 0 28 = 0#28 := by
  rcases h with h | h <;> simp only [decode, h] <;> exact exists_ok_ite

theorem legal_iff_of_init {cmd data : Word} (h : opField cmd = 1#4) :
    (∃ i, decode cmd data = .ok i) ↔ cmd.extractLsb' 1 27 = 0#27 := by
  have hbits : cmd.extractLsb' 1 27 = 0 ↔ cmd.extractLsb' 2 26 = 0 ∧ cmd.getLsbD 1 = false := by
    rw [bits_eq_zero, bits_eq_zero, bit_one_clear]
    omega
  refine Iff.trans ?_ hbits.symm
  by_cases hreserved : cmd.extractLsb' 2 26 = 0
  · simp only [decode, h, hreserved, if_true, true_and]
    exact exists_ok_ite
  · simp only [decode, h, hreserved, if_false, false_and]
    simp

theorem legal_iff_of_update {cmd data : Word} (h : opField cmd = 2#4) :
    (∃ i, decode cmd data = .ok i) ↔ cmd.extractLsb' 2 26 = 0#26 := by
  simp only [decode, h]; exact exists_ok_ite

theorem legal_iff_of_read {cmd data : Word} (h : opField cmd = 4#4) :
    (∃ i, decode cmd data = .ok i) ↔ cmd.extractLsb' 3 25 = 0#25 := by
  simp only [decode, h]; exact exists_ok_ite

/-- Settles O4: a legal word is an encoding, and so are the words that the rows select. -/
theorem legalWordsAreTheTableRows : Obligations.LegalWordsAreTheTableRows := by
  intro cmd data
  refine ⟨legal_iff_of_plain, legal_iff_of_init, legal_iff_of_update, legal_iff_of_read,
    ⟨fun ⟨i, hi⟩ => exists_row_of_decode hi, fun ⟨r, hr, hcmd⟩ => ?_⟩, fun i hi r hr hcmd => ?_, fun hno s => ?_⟩
  · obtain ⟨i, hwf, rfl, -⟩ := encodeCmd_of_selects hr hcmd
    obtain ⟨i', hi', -⟩ := decode_encodeCmd hwf data
    exact ⟨i', hi'⟩
  · obtain ⟨j, hwf, rfl, hname⟩ := encodeCmd_of_selects hr hcmd
    obtain ⟨i', hi', hname'⟩ := decode_encodeCmd hwf data
    rw [hi'] at hi
    cases hi
    rw [hname', hname]
  · obtain ⟨r, hr⟩ := decode_eq_error hno
    exact runCommand_error hr s

theorem decode_reservedOpcode {cmd : Word} (h : 5 ≤ (opField cmd).toNat) (data : Word) :
    decode cmd data = .error .reservedOpcode := by
  unfold decode
  split
  case h_6 => rfl
  all_goals omega

/-- Settles O5: `decode_reservedOpcode`, and the one encoding of NOP. -/
theorem reservedOpcodesAreIllegal : Obligations.ReservedOpcodesAreIllegal := by
  refine ⟨fun cmd data s h => runCommand_error (decode_reservedOpcode h data) s, fun cmd data => ⟨fun h => ?_, ?_⟩⟩
  · obtain ⟨-, hcmd, -⟩ := encodeOfDecodeIsWord cmd data .nop h
    exact hcmd.symm
  · rintro rfl
    rfl

/-! ### DATA -/

theorem laneBytes_getElem? {n : BitVec 2} {k : Nat} (hk : k < byteCount n) (data : Word) :
    (laneBytes n data)[k]? = some (laneByte data k) := by
  simp [laneBytes, hk]

/-- UPDATE reads DATA by its lanes alone (20_memory.md R71). -/
theorem exec_update_congr {n : BitVec 2} {d d' : Word} (h : laneBytes n d = laneBytes n d') (s : State) :
    exec (.update n d) s = exec (.update n d') s := by
  by_cases hp : s.phase = .absorb
  · rw [exec_update hp, exec_update hp, h]
  · rw [exec_update_rejected hp, exec_update_rejected hp]

/-- Settles O6: the decoder passes DATA on to UPDATE alone, and UPDATE reads its lanes. -/
theorem dataIsReadByUpdateLanesOnly : Obligations.DataIsReadByUpdateLanesOnly := by
  refine ⟨fun cmd d d' s hop => ?_, fun n d k hk => ?_, fun n d d' s h => ?_, fun cmd d d' ⟨i, hi⟩ => ?_⟩
  · rw [runCommand, runCommand, decode_ignores_data hop d d']
  · rw [laneBytes_getElem? hk, ← Nat.shiftRight_eq_div_pow]
    rfl
  · exact exec_update_congr (List.map_congr_left fun k hk => h k (List.mem_range.1 hk)) s
  · obtain ⟨hwf, rfl, -⟩ := encodeOfDecodeIsWord cmd d i hi
    obtain ⟨i', hi', -⟩ := decode_encodeCmd hwf d'
    exact ⟨i', hi'⟩

/-! ### Single words and script lines -/

/-- Settles O1. -/
theorem writtenWordsDecode : Obligations.WrittenWordsDecode := by
  unfold Obligations.WrittenWordsDecode
  decide

theorem decode_reservedVariant {v : BitVec 2} (hv : v = 2#2 ∨ v = 3#2) (data : Word) :
    decode (0x10000000#32 ||| v.zeroExtend 32) data = .error .reservedVariant := by
  have hword : ∀ v : BitVec 2, v = 2#2 ∨ v = 3#2 → opField (0x10000000#32 ||| v.zeroExtend 32) ≠ 2#4 ∧
      decode (0x10000000#32 ||| v.zeroExtend 32) 0 = .error .reservedVariant := by decide
  obtain ⟨hop, hzero⟩ := hword v hv
  exact (decode_ignores_data hop data 0).trans hzero

/-- Settles O13: a reserved V has no variant, as a command, and no encoding, as a word. -/
theorem reservedVariantsAreIllegal : Obligations.ReservedVariantsAreIllegal := by
  refine ⟨rfl, rfl, fun v data s hv => ⟨?_, exec_init_reserved (by rcases hv with rfl | rfl <;> rfl) s⟩⟩
  rw [runCommand_error (decode_reservedVariant hv data)]

/-- A transaction with its CMD word written as a number. -/
theorem transaction_eq_ofNat {cmd data : Word} {n : Nat} (h : cmd.toNat = n) :
    (⟨cmd, data⟩ : Transaction) = { cmd := BitVec.ofNat 32 n, data := data } := by
  rw [← h, BitVec.ofNat_toNat, BitVec.setWidth_eq]

/-- Settles O48: a word with an operand is its opcode and its operand added up; the other words are written out. -/
theorem scriptLinesAssemble : Obligations.ScriptLinesAssemble :=
  ⟨rfl, rfl, rfl, fun v => transaction_eq_ofNat (initWord_toNat v), fun n _ => transaction_eq_ofNat (updateWord_toNat n), rfl,
    fun i => transaction_eq_ofNat (readWord_toNat i), fun _ => rfl, fun _ => rfl⟩

end Sys2Proof.Proofs
end

section
/-! The absorbed message and its digest (43_commands.md R165, R170, R175; 42_padder.md R150): each byte absorbed extends the
message, FINISH leaves the digest of it in H, and READ gives that out word by word. -/

namespace Sys2Proof.Proofs

open Sys2Proof.Machine Sys2Proof.Laws

/-! ### Blocks of a message -/

theorem messageResidual_length (m : List Byte) : (messageResidual m).length = m.length % 64 := by
  simp only [messageResidual, fullBlocks, List.length_drop]
  omega

/-- A block that is whole already is not changed by what follows. -/
theorem messageBlock_append {m : List Byte} {j : Nat} (hj : j < fullBlocks m) (l : List Byte) :
    messageBlock (m ++ l) j = messageBlock m j := by
  unfold fullBlocks at hj
  rw [messageBlock, messageBlock, List.drop_append_of_le_length (by omega),
    List.take_append_of_le_length (by rw [List.length_drop]; omega)]

/-- The hash state after the full blocks of a message, while more of it follows. -/
theorem absorbedHash_append (v : Variant) (m l : List Byte) :
    (List.range (fullBlocks m)).foldl (fun h j => compressTable h (messageBlock (m ++ l) j)) (ivTable v) = absorbedHash v m :=
  List.foldl_ext _ _ _ fun _ j hj => by rw [messageBlock_append (List.mem_range.1 hj)]

section Room

variable {m : List Byte} (hm : m.length % 64 + 1 ≠ 64) (b : Byte)

include hm

theorem fullBlocks_room : fullBlocks (m ++ [b]) = fullBlocks m := by
  simp only [fullBlocks, List.length_append, List.length_singleton]
  omega

theorem messageResidual_room : messageResidual (m ++ [b]) = messageResidual m ++ [b] := by
  rw [messageResidual, fullBlocks_room hm, List.drop_append_of_le_length (by rw [fullBlocks]; omega), messageResidual]

theorem absorbedHash_room (v : Variant) : absorbedHash v (m ++ [b]) = absorbedHash v m := by
  rw [← absorbedHash_append v m [b], absorbedHash, fullBlocks_room hm]

end Room

section Full

variable {m : List Byte} (hm : m.length % 64 + 1 = 64) (b : Byte)

include hm

theorem fullBlocks_full : fullBlocks (m ++ [b]) = fullBlocks m + 1 := by
  simp only [fullBlocks, List.length_append, List.length_singleton]
  omega

theorem messageResidual_full : messageResidual (m ++ [b]) = [] := by
  rw [messageResidual, fullBlocks_full hm, List.drop_eq_nil_iff, List.length_append, List.length_singleton, fullBlocks]
  omega

theorem absorbedHash_full (v : Variant) :
    absorbedHash v (m ++ [b]) = compressTable (absorbedHash v m) (messageResidual m ++ [b]) := by
  have hblock : messageBlock (m ++ [b]) (fullBlocks m) = messageResidual m ++ [b] := by
    rw [messageBlock, List.drop_append_of_le_length (by rw [fullBlocks]; omega), List.take_of_length_le, messageResidual]
    rw [List.length_append, ← messageResidual, messageResidual_length, List.length_singleton, hm]
  rw [absorbedHash, fullBlocks_full hm, List.range_succ, List.foldl_append, absorbedHash_append, List.foldl_cons, hblock,
    List.foldl_nil]

end Full

/-! ### Absorption -/

/-- INIT opens the empty message (43_commands.md R165). -/
theorem absorbed_openDigest (v : Variant) (s : State) : Absorbed v [] (openDigest v s) :=
  ⟨rfl, rfl, rfl, rfl, rfl, rfl⟩

theorem absorbed_bufLen_le {v : Variant} {m : List Byte} {s : State} (h : Absorbed v m s) : s.bufLen.val ≤ 63 := by
  obtain ⟨-, -, hlen, -⟩ := h
  omega

theorem absorbed_clearRData {v : Variant} {m : List Byte} {s : State} (h : Absorbed v m s) : Absorbed v m (clearRData s) := h

/-- One more byte of the message (43_commands.md R164). -/
theorem absorbByte_absorbed {v : Variant} {m : List Byte} {s : State} (h : Absorbed v m s) (b : Byte) :
    ∃ t, absorbByte b s = .next t ∧ Absorbed v (m ++ [b]) t := by
  have hroom : s.bufLen.val < 64 := Nat.lt_succ_of_le (absorbed_bufLen_le h)
  obtain ⟨hphase, hvar, hlen, hcnt, hres, hhash⟩ := h
  by_cases hfull : s.bufLen.val + 1 = 64
  · have hm : m.length % 64 + 1 = 64 := by omega
    refine ⟨_, absorbByte_full b hroom hfull, hphase, hvar, ?_, ?_, ?_, ?_⟩
    · simp only [emptyBuffer_bufLen, List.length_append, List.length_singleton]
      change 0 = _
      omega
    · simp only [emptyBuffer_byteCnt, storeByte_byteCnt, hcnt, List.length_append, List.length_singleton]
      rw [show (m.length + 1) / 64 = m.length / 64 + 1 by omega, Nat.mul_succ, BitVec.ofNat_add]
    · rw [messageResidual_full hm]
      simp [liveResidual]
    · simp only [emptyBuffer_h]
      rw [compressed_hash, absorbedHash_full hm, hres, hhash]
  · have hm : m.length % 64 + 1 ≠ 64 := by omega
    refine ⟨_, absorbByte_room b hroom hfull, hphase, hvar, ?_, ?_, ?_, ?_⟩
    · simp only [storeByte_bufLen, List.length_append, List.length_singleton]
      omega
    · simp only [storeByte_byteCnt, hcnt, List.length_append, List.length_singleton]
      congr 2
      omega
    · rw [liveResidual_storeByte, hres, messageResidual_room hm]
    · rw [storeByte_h, hhash, absorbedHash_room hm]

theorem absorbBytes_absorbed (l : List Byte) {v : Variant} {m : List Byte} {s : State} (h : Absorbed v m s) :
    ∃ t, absorbBytes l s = .next t ∧ Absorbed v (m ++ l) t := by
  induction l generalizing m s with
  | nil => exact ⟨s, rfl, by rwa [List.append_nil]⟩
  | cons b rest ih =>
    obtain ⟨t, ht, hm⟩ := absorbByte_absorbed h b
    obtain ⟨u, hu, hmr⟩ := ih hm
    exact ⟨u, by rw [absorbBytes, ht, andThen_next, hu], by rwa [List.append_assoc] at hmr⟩

/-- UPDATE extends the message by its lanes and keeps the error record (43_commands.md R163, R165). -/
theorem exec_update_absorbed (n : BitVec 2) (data : Word) {v : Variant} {m : List Byte} {s : State} (h : Absorbed v m s) :
    ∃ t, exec (.update n data) s = .next t ∧ Absorbed v (m ++ laneBytes n data) t ∧ t.err = s.err := by
  obtain ⟨t, ht, hm⟩ := absorbBytes_absorbed (laneBytes n data) (absorbed_clearRData h)
  obtain ⟨hphase, -⟩ := h
  exact ⟨t, by rw [exec_update hphase, ht], hm, by rw [absorbBytes_frame ht]; rfl⟩

/-! ### The digest -/

/-- finalize compresses the padding of the message (42_padder.md R147, R150). -/
theorem finalize_absorbed {v : Variant} {m : List Byte} {s : State} (h : Absorbed v m s) :
    ∃ t, finalize s = .next t ∧ t.h = digestHash v m := by
  have hlen := absorbed_bufLen_le h
  obtain ⟨-, -, -, hcnt, hres, hhash⟩ := h
  obtain ⟨t, ht, hh⟩ := compressAll_hash (paddingBlocks_whole (r := liveResidual s) (by rwa [liveResidual_length])
    (totalBits s.byteCnt s.bufLen.val)) s
  refine ⟨closeDigest t, by rw [finalize, ht, andThen_next], ?_⟩
  rw [closeDigest_h, hh, ← liveResidual_length s, hres, hhash, hcnt]
  rfl

/-- FINISH leaves the hash state of the digest and keeps the error record (43_commands.md R170). -/
theorem exec_finish_absorbed {v : Variant} {m : List Byte} {s : State} (h : Absorbed v m s) :
    ∃ t, exec .finish s = .next t ∧ t.phase = .done ∧ t.var = v ∧ t.h = digestHash v m ∧ t.err = s.err := by
  obtain ⟨t, ht, hh⟩ := finalize_absorbed (absorbed_clearRData h)
  obtain ⟨hphase, hvar, -⟩ := h
  have hframe := finalize_frame ht
  exact ⟨t, by rw [exec_finish hphase, ht], by rw [hframe], by rw [hframe]; exact hvar, hh, by rw [hframe]; rfl⟩

/-- Word `i` of a list of words written out byte by byte. -/
theorem flatMap_bytes32_word {l : List Word} {i : Nat} (hi : i < l.length) :
    ((l.flatMap bytes32).drop (4 * i)).take 4 = bytes32 l[i] := by
  induction l generalizing i with
  | nil => cases hi
  | cons x rest ih =>
    cases i with
    | zero => rfl
    | succ i =>
      have hdrop : (bytes32 x ++ rest.flatMap bytes32).drop (4 * (i + 1)) = (rest.flatMap bytes32).drop (4 * i) := by
        rw [Nat.mul_succ, Nat.add_comm, ← List.drop_drop]
        rfl
      rw [List.flatMap_cons, hdrop, ih (Nat.lt_of_succ_lt_succ hi), List.getElem_cons_succ]

theorem nw_le (v : Variant) : nw v ≤ 8 := by cases v <;> decide

/-- The bytes of hash word `i` are digest bytes 4i to 4i+3 (42_padder.md R148). -/
theorem bytes32_hashWord (v : Variant) (h : HashState) {i : BitVec 3} (hi : i.toNat < nw v) :
    bytes32 (hashWord h i) = ((serialize v h).drop (4 * i.toNat)).take 4 := by
  have hlen : i.toNat < (h.toList.take (nw v)).length := by
    rw [List.length_take, Vector.length_toList]
    have := nw_le v
    omega
  rw [serialize, flatMap_bytes32_word hlen, List.getElem_take, Vector.getElem_toList, hashWord]

end Sys2Proof.Proofs
end

section
/-! A script on a free port: its steps run its commands (20_memory.md R53, 30_encoding.md R92), and the script DIGEST leaves the
digest of its message (R93). -/

namespace Sys2Proof.Proofs

open Sys2Proof.Machine Sys2Proof.Laws

/-! ### A script as a list of commands -/

/-- The steps of a script leave the registers that its commands make, whatever stands around them. -/
theorem run_script {lines : List ScriptLine} {rest : List HostEvent} {s t : State} (hflight : s.port.flight = none)
    (hoffer : s.port.offer = none) (hwrite : s.port.write = none) (hin : s.inputs = scriptEvents lines ++ rest)
    (h : runCommands (lines.map assemble) s = .next t) :
    ∃ a, Host.Core.run Sys2Proof.core lines.length s = .next (setAround a t) := by
  induction lines generalizing s t with
  | nil =>
    obtain rfl := Host.Outcome.next.inj h
    exact ⟨_, rfl⟩
  | cons line lines ih =>
    obtain ⟨u, hu, ht⟩ := andThen_eq_next h
    let a : State := { s with inputs := scriptEvents lines ++ rest }
    have hstep : step s = .next (setAround (answered a) u) := by
      rw [step_cons hin]
      change transact _ _ a = _
      rw [transact_free (s := a) hflight hoffer hwrite, show a = setAround a s from rfl, respond_setAround, hu]
      rfl
    have hcommands : runCommands (lines.map assemble) (setAround (answered a) u) = .next (setAround (answered a) t) := by
      rw [runCommands_setAround, ht]
      rfl
    obtain ⟨b, hb⟩ := ih (s := setAround (answered a) u) rfl hoffer hwrite rfl hcommands
    exact ⟨b, (run_succ hstep lines.length).trans hb⟩

/-- A line that issues the words of a well-formed command runs that command (43_commands.md R160). -/
theorem runCommands_line {line : ScriptLine} {i : Instr} (hline : assemble line = { cmd := encodeCmd i, data := encodeData i })
    (hi : i.wellFormed = true) {s t : State} (h : exec i s = .next t) (rest : List Transaction) :
    runCommands (assemble line :: rest) s = runCommands rest t := by
  rw [hline, runCommands, runCommand_ok (decode_encode hi), h, andThen_next]

/-! ### ABSORB -/

/-- The lanes of a DATA word are the bytes it is assembled from, each seen by its eight bits (20_memory.md R54). -/
theorem laneByte_be32 (a b c d : Byte) :
    laneByte (be32 a b c d) 0 = a ∧ laneByte (be32 a b c d) 1 = b ∧ laneByte (be32 a b c d) 2 = c ∧
      laneByte (be32 a b c d) 3 = d := by
  refine ⟨?_, ?_, ?_, ?_⟩ <;> ext i hi <;> interval_cases i <;> simp [laneByte, be32]

/-- The first lanes of an assembled DATA word. -/
theorem laneBytes_be32 (n : BitVec 2) (a b c d : Byte) : laneBytes n (be32 a b c d) = [a, b, c, d].take (byteCount n) := by
  obtain ⟨ha, hb, hc, hd⟩ := laneByte_be32 a b c d
  have hfour : (List.range 4).map (laneByte (be32 a b c d)) = [a, b, c, d] := by simp [List.range_succ, ha, hb, hc, hd]
  obtain ⟨-, hle⟩ := byteCount_le n
  rw [← hfour, ← List.map_take, List.take_range, Nat.min_eq_left hle, laneBytes]

/-- An UPDATE line ahead of a script that absorbs the rest of the bytes. -/
theorem runCommands_update (n : BitVec 2) (data : Word) {l : List Byte} {rest : List Transaction}
    (hrest : ∀ {v m s}, Absorbed v m s → ∃ t, runCommands rest s = .next t ∧ Absorbed v (m ++ l) t ∧ t.err = s.err)
    {v : Variant} {m : List Byte} {s : State} (h : Absorbed v m s) :
    ∃ t, runCommands (assemble (.update n data) :: rest) s = .next t ∧ Absorbed v (m ++ (laneBytes n data ++ l)) t ∧
      t.err = s.err := by
  obtain ⟨u, hu, hmu, herr⟩ := exec_update_absorbed n data h
  obtain ⟨t, ht, hmt, herr'⟩ := hrest hmu
  exact ⟨t, (runCommands_line rfl rfl hu rest).trans ht, by rwa [List.append_assoc] at hmt, herr'.trans herr⟩

/-- ABSORB appends its bytes to the message and keeps the error record (30_encoding.md R93). -/
theorem runCommands_absorbScript (l : List Byte) {v : Variant} {m : List Byte} {s : State} (h : Absorbed v m s) :
    ∃ t, runCommands ((absorbScript l).map assemble) s = .next t ∧ Absorbed v (m ++ l) t ∧ t.err = s.err := by
  have hnil : ∀ {v m s}, Absorbed v m s → ∃ t, runCommands [] s = .next t ∧ Absorbed v (m ++ []) t ∧ t.err = s.err :=
    fun {v m s} h => ⟨s, rfl, by rwa [List.append_nil], rfl⟩
  induction l using absorbScript.induct generalizing v m s with
  | case1 => exact hnil h
  | case2 a => simpa [absorbScript, laneBytes_be32, byteCount] using runCommands_update 0#2 (be32 a 0 0 0) hnil h
  | case3 a b => simpa [absorbScript, laneBytes_be32, byteCount] using runCommands_update 1#2 (be32 a b 0 0) hnil h
  | case4 a b c => simpa [absorbScript, laneBytes_be32, byteCount] using runCommands_update 2#2 (be32 a b c 0) hnil h
  | case5 a b c d rest ih =>
    simpa [absorbScript, laneBytes_be32, byteCount] using runCommands_update 3#2 (be32 a b c d) ih h

/-! ### READ 0 to READ I -/

/-- The field of READ holds every word number below NW (30_encoding.md R86). -/
theorem toNat_index {v : Variant} {i : Nat} (hi : i < nw v) : (BitVec.ofNat 3 i).toNat = i :=
  Nat.mod_eq_of_lt (Nat.lt_of_lt_of_le hi (nw_le v))

theorem runCommands_read {s : State} (hphase : s.phase = .done) {i : BitVec 3} (hi : i.toNat < nw s.var) :
    runCommands [assemble (.read i)] s = .next { s with rdata := hashWord s.h i } :=
  runCommands_line rfl rfl (exec_read hphase hi) []

/-- READ 0 to READ I in DONE show word I (43_commands.md R175). -/
theorem runCommands_reads {s : State} (hphase : s.phase = .done) {i : Nat} (hi : i < nw s.var) :
    runCommands (((readScript s.var).take (i + 1)).map assemble) s =
      .next { s with rdata := hashWord s.h (BitVec.ofNat 3 i) } := by
  have htake : (readScript s.var).take (i + 1) = (List.range (i + 1)).map fun j => .read (BitVec.ofNat 3 j) := by
    rw [readScript, ← List.map_take, List.take_range, Nat.min_eq_left hi]
  rw [htake]
  clear htake
  induction i with
  | zero => exact runCommands_read hphase hi
  | succ i ih =>
    rw [List.range_succ, List.map_append, List.map_append, runCommands_append, ih (Nat.lt_of_succ_lt hi), andThen_next]
    exact runCommands_read (s := { s with rdata := _ }) hphase (by rwa [toNat_index hi])

/-! ### DIGEST -/

/-- The script DIGEST up to READ I. -/
def digestPrefix (v : Variant) (m : List Byte) (i : Nat) : List ScriptLine :=
  .init v :: absorbScript m ++ .finish :: (readScript v).take (i + 1)

theorem digestPrefix_length (v : Variant) (m : List Byte) {i : Nat} (hi : i < nw v) :
    (digestPrefix v m i).length = 1 + (absorbScript m).length + 1 + (i + 1) := by
  have hreads : (readScript v).length = nw v := by simp [readScript]
  simp [digestPrefix, hreads, Nat.min_eq_left hi]
  omega

theorem digestScript_eq_prefix (v : Variant) (m : List Byte) (i : Nat) :
    digestScript v m = digestPrefix v m i ++ (readScript v).drop (i + 1) := by
  simp [digestScript, digestPrefix]

/-- From any state, INIT opens the computation, the UPDATEs absorb the message, FINISH leaves its digest, and READ I shows word I
of it (42_padder.md R150, R154). -/
theorem runCommands_digestPrefix (v : Variant) (m : List Byte) {i : Nat} (hi : i < nw v) (s : State) :
    ∃ t, runCommands ((digestPrefix v m i).map assemble) s = .next t ∧
      t.phase = .done ∧ t.err = false ∧ t.rdata = hashWord (digestHash v m) (BitVec.ofNat 3 i) := by
  have hwf : (Instr.init (variantField v)).wellFormed = true := by cases v <;> rfl
  have hvar : variantOf (variantField v) = some v := by cases v <;> rfl
  obtain ⟨t, ht, hm, herr⟩ := runCommands_absorbScript m (absorbed_openDigest v (clearRData s))
  obtain ⟨u, hu, hphase, rfl, hh, herr'⟩ := exec_finish_absorbed hm
  refine ⟨{ u with rdata := hashWord u.h (BitVec.ofNat 3 i) }, ?_, hphase, herr'.trans herr, by rw [hh]; rfl⟩
  rw [digestPrefix, List.cons_append, List.map_cons, runCommands_line rfl hwf (exec_init hvar s), List.map_append,
    runCommands_append, ht, andThen_next, List.map_cons, runCommands_line rfl rfl hu, runCommands_reads hphase hi]

/-- Settles O49: the steps are the commands of the script up to READ I, whose word is digest bytes 4I to 4I+3. -/
theorem digestScriptComputesTheDigest : Obligations.DigestScriptComputesTheDigest := by
  intro v m s rest i hflight hoffer hwrite hi hin
  obtain ⟨t, ht, hphase, herr, hrdata⟩ := runCommands_digestPrefix v m hi s
  rw [digestScript_eq_prefix v m i, scriptEvents, List.map_append, List.append_assoc] at hin
  obtain ⟨a, ha⟩ := run_script hflight hoffer hwrite hin ht
  rw [digestPrefix_length v m hi] at ha
  refine ⟨setAround a t, ha, hphase, herr, ?_⟩
  calc bytes32 t.rdata = bytes32 (hashWord (digestHash v m) (BitVec.ofNat 3 i)) := by rw [hrdata]
    _ = ((digest v m).drop (4 * i)).take 4 := by rw [bytes32_hashWord v _ (by rwa [toNat_index hi]), toNat_index hi, digest]

end Sys2Proof.Proofs
end

section
/-! No step faults (60_exceptions.md R208): the two faults of the machine are those of compress on a short block and of absorbing
into a full buffer, and between two steps BUFLEN is below 64 (10_state.md R25). -/

namespace Sys2Proof.Proofs

open Sys2Proof.Machine Sys2Proof.Laws

/-- An answer that is no fault: a next state or a refusal. -/
def Faultless (r : Result) : Prop := ∀ x, r ≠ .fault x

theorem faultless_next (s : State) : Faultless (.next s) := fun _ h => nomatch h

theorem faultless_refused (r : Refusal) : Faultless (.refused r) := fun _ h => nomatch h

theorem faultless_of_completes {r : Result} (h : ∃ t, r = .next t) : Faultless r := by
  obtain ⟨t, rfl⟩ := h
  exact faultless_next t

/-- A sequence faults only where one of its parts does. -/
theorem Faultless.andThen {r : Result} {f : State → Result} (hr : Faultless r) (hf : ∀ s, r = .next s → Faultless (f s)) :
    Faultless (andThen r f) := by
  cases r with
  | next s => exact hf s rfl
  | fault x => exact absurd rfl (hr x)
  | refused x => exact faultless_refused x

/-- The wait for a CMD write runs at most the command in flight, which completes (20_memory.md R65). -/
theorem settle_faultless {s : State} (hs : s.bufLen.val ≤ 63) : Faultless (settle s) := by
  cases hw : s.port.write with
  | none => rw [settle_none hw]; exact faultless_next s
  | some x =>
    rw [settle_some hw]
    exact (faultless_of_completes (drain_completes hs)).andThen fun t _ => faultless_next _

/-- A transaction runs the commands before it and then its own, each from a state that keeps the invariant. -/
theorem transact_faultless (cmd data : Word) {s : State} (hs : EngineInv s) : Faultless (transact cmd data s) := by
  unfold transact
  split
  · exact faultless_refused _
  · have hs := EngineInv.setAround (a := { s with port := { s.port with offer := none } }).2 hs
    refine Faultless.andThen (settle_faultless hs.bufLen_le) fun t ht => ?_
    have ht : EngineInv t := (settle_runs ht).keeps_engineInv hs
    refine (faultless_of_completes (drain_completes ht.bufLen_le)).andThen fun u hu => ?_
    have hu : EngineInv u := (drain_runs hu).keeps_engineInv ht
    exact faultless_of_completes (respond_completes cmd data hu.bufLen_le)

theorem flightEdge_faultless (f : Flight) (o : Option Transaction) {s : State} (hs : s.bufLen.val ≤ 63) :
    Faultless (flightEdge f o s) := by
  by_cases hwait : f.wait = 0
  · rw [flightEdge_answers hwait]
    exact faultless_of_completes (respond_completes f.cmd f.data hs)
  · rw [flightEdge_counts hwait]
    exact faultless_next _

/-- An edge is refused, resets the engine, or runs at most the command in flight (20_memory.md R52, 70_reset_and_hazards.md
R231). -/
theorem clockEdge_faultless (p : Pins) {s : State} (hs : s.bufLen.val ≤ 63) : Faultless (clockEdge p s) := by
  cases hno : edgeRefusal p s with
  | some r => rw [clockEdge_refused hno]; exact faultless_refused r
  | none =>
    cases hr : p.rst with
    | true => rw [clockEdge_reset hno hr]; exact faultless_next _
    | false =>
      cases hf : s.port.flight with
      | some f => rw [clockEdge_flight hno hr hf]; exact flightEdge_faultless f _ hs
      | none => rw [clockEdge_idle hno hr hf]; exact faultless_next _

theorem wrapperIssue_faultless (value : Word) (s : State) : Faultless (wrapperIssue value s) := by
  unfold wrapperIssue
  split
  · exact faultless_refused _
  · exact faultless_next _

theorem wrapperWriteAt_faultless (offset : BitVec 4) (value : Word) (s : State) :
    Faultless (wrapperWriteAt offset value s) := by
  unfold wrapperWriteAt
  split
  · exact faultless_next _
  · split
    · exact wrapperIssue_faultless value s
    · exact faultless_next _

theorem wrapperWrite_faultless (base addr : Word) (size : BusSize) (value : Word) {s : State} (hs : s.bufLen.val ≤ 63) :
    Faultless (wrapperWrite base addr size value s) := by
  unfold wrapperWrite
  split
  · exact faultless_refused _
  · exact (settle_faultless hs).andThen fun t _ => wrapperWriteAt_faultless _ value t

theorem wrapperRead_faultless (base addr : Word) (size : BusSize) {s : State} (hs : s.bufLen.val ≤ 63) :
    Faultless (wrapperRead base addr size s) := by
  unfold wrapperRead
  split
  · exact faultless_refused _
  · exact (settle_faultless hs).andThen fun t _ => faultless_next _

theorem handle_faultless (base : Word) (e : HostEvent) {s : State} (hs : EngineInv s) : Faultless (handle base e s) := by
  cases e with
  | command cmd data => exact transact_faultless cmd data hs
  | edge p => exact clockEdge_faultless p hs.bufLen_le
  | busWrite addr size value => exact wrapperWrite_faultless base addr size value hs.bufLen_le
  | busRead addr size => exact wrapperRead_faultless base addr size hs.bufLen_le

theorem step_faultless {s : State} (hs : s.Inv) : Faultless (step s) := by
  obtain ⟨hengine, -⟩ := inv_iff.1 hs
  cases hin : s.inputs with
  | nil => rw [step_nil hin]; exact faultless_next s
  | cons e rest =>
    rw [step_cons hin]
    exact handle_faultless _ e (EngineInv.setAround (a := { s with inputs := rest }).2 hengine)

/-- A run is a step and then the run from its state. -/
theorem run_step (n : Nat) (s : State) :
    Host.Core.run Sys2Proof.core (n + 1) s = andThen (step s) (Host.Core.run Sys2Proof.core n) := by
  have hcore : Sys2Proof.core.step s = step s := rfl
  cases h : step s <;> simp only [Host.Core.run, hcore, h] <;> rfl

theorem run_faultless (n : Nat) {s : State} (hs : s.Inv) : Faultless (Host.Core.run Sys2Proof.core n s) := by
  induction n generalizing s with
  | zero => exact faultless_next s
  | succ n ih =>
    rw [run_step]
    exact (step_faultless hs).andThen fun t ht => ih (everyStepKeepsTheInvariant s t hs ht)

/-- Settles O30: the invariant holds along a run, and no step faults in a state that meets it. -/
theorem noRunFaults : Obligations.NoRunFaults :=
  ⟨fun _ s hb => compress_short hb.ne s, fun n _ x hs => run_faultless n hs x⟩

end Sys2Proof.Proofs
end

section
/-! compress against the table form (40_compression.md R113). -/

namespace Sys2Proof.Proofs

open Sys2Proof.Machine Sys2Proof.Laws

/-- The table form, written out: the feed-forward of what 64 rounds make of the hash state (40_compression.md R111, R112). -/
theorem compressTable_eq (h : HashState) (block : List Byte) :
    compressTable h block = feedForward h (tableRounds block (loadWorking h)) := by
  unfold compressTable
  rfl

/-- The example of the all-zero block (40_compression.md R113). -/
theorem compressTable_zeros :
    compressTable (ivTable .sha256) (zeros 64) =
      #v[0xda5698be#32, 0x17b9b469#32, 0x62335799#32, 0x779fbeca#32,
        0x8ce5d491#32, 0xc0d26243#32, 0xbafef9ea#32, 0x1837a9d8#32] := by decide +kernel

/-- The round constants alone move the all-zero hash state (40_compression.md R113). -/
theorem compressTable_zeroState : compressTable (Vector.replicate 8 0#32) (zeros 64) ≠ Vector.replicate 8 0#32 := by
  decide +kernel

/-- Settles O41: the datapath's working variables are those of the table form, whose ring words are the schedule's. -/
theorem compressIsTheTableCompression : Obligations.CompressIsTheTableCompression := by
  refine ⟨fun block s hb => ?_, compressTable_zeros, compressTable_zeroState⟩
  have hhash := compressed_hash s block
  exact ⟨_, compress_whole hb s, hhash, hhash.trans (compressTable_eq s.h block), compressed_rounds s.h block, rfl⟩

end Sys2Proof.Proofs
end

section
/-! The round constants against the cube roots of the first 64 primes (10_state.md R36, 40_compression.md R106). -/

namespace Sys2Proof.Proofs

open Sys2Proof.Machine

/-- `r` is the integer part of the cube root of `n`. -/
abbrev IsCubeRoot (r n : Nat) : Prop := r ^ 3 ≤ n ∧ n < (r + 1) ^ 3

/-- Trial division by the primes up to 17. -/
def trial (n : Nat) : Bool := 2 ≤ n && [2, 3, 5, 7, 11, 13, 17].all fun q => n == q || n % q != 0

/-- Trial division finds the primes below 19 ^ 2, where the least factor of any other number is at most 17. -/
theorem trial_iff_prime {n : Nat} (hn : n < 361) : trial n ↔ n.Prime := by
  simp only [trial, Bool.and_eq_true, decide_eq_true_eq, List.all_eq_true, Bool.or_eq_true, beq_iff_eq, bne_iff_ne]
  constructor
  · rintro ⟨h2, hall⟩
    by_contra hnot
    have hfactor : n.minFac.Prime := Nat.minFac_prime (by omega)
    have hsq : n.minFac ^ 2 ≤ n := Nat.minFac_sq_le_self (by omega) hnot
    have hlt : n.minFac < 19 := lt_of_pow_lt_pow_left₀ 2 (by decide) (hsq.trans_lt hn)
    have hmem : ∀ q < 19, q.Prime → q ∈ [2, 3, 5, 7, 11, 13, 17] := by decide
    rcases hall _ (hmem _ hlt hfactor) with heq | hmod
    · exact hnot (heq ▸ hfactor)
    · exact hmod (Nat.mod_eq_zero_of_dvd n.minFac_dvd)
  · intro hprime
    refine ⟨hprime.two_le, fun q hq => or_iff_not_imp_right.2 fun hmod => ?_⟩
    have hdvd : q ∣ n := Nat.dvd_of_mod_eq_zero (not_not.1 hmod)
    have hq : q ≠ 1 := by rintro rfl; simp at hq
    exact ((hprime.eq_one_or_self_of_dvd q hdvd).resolve_left hq).symm

theorem count_prime_eq_trial {n : Nat} (hn : n ≤ 361) : Nat.count Nat.Prime n = Nat.count (trial ·) n :=
  le_antisymm (Nat.count_mono_left fun _ hk => (trial_iff_prime (by omega)).2)
    (Nat.count_mono_left fun _ hk => (trial_iff_prime (by omega)).1)

/-- The primes below 312 are the first 64. -/
theorem count_trial : Nat.count (trial ·) 312 = 64 := by decide +kernel

/-- A prime's cube root to 32 bits after the point is a whole part and, as its fraction, the round constant that the number of
smaller primes selects. -/
theorem roundConstant_cubeRoot : ∀ p < 312, trial p → ∃ whole < 7,
    IsCubeRoot (whole * 2 ^ 32 + (roundConstant (Nat.count (trial ·) p)).toNat) (p * 2 ^ 96) := by decide +kernel

/-- Settles O36: the (t+1)-th prime is below 312 and has t smaller primes. -/
theorem roundConstantsAreCubeRoots : Obligations.RoundConstantsAreCubeRoots := by
  intro t ht
  have hlt : Nat.nth Nat.Prime t < 312 :=
    Nat.nth_lt_of_lt_count (by rwa [count_prime_eq_trial (by decide), count_trial])
  have hcount : Nat.count Nat.Prime (Nat.nth Nat.Prime t) = t := Nat.count_nth_of_infinite Nat.infinite_setOfPred_prime t
  have htrial : trial (Nat.nth Nat.Prime t) := (trial_iff_prime (by omega)).2 (Nat.prime_nth_prime t)
  obtain ⟨whole, -, hle, hgt⟩ := roundConstant_cubeRoot _ hlt htrial
  rw [← count_prime_eq_trial (by omega), hcount] at hle hgt
  exact ⟨_, hle, hgt, by rw [Nat.mul_add_mod', Nat.mod_eq_of_lt (roundConstant t).isLt]⟩

end Sys2Proof.Proofs
end

section
/-! The word primitives bit by bit, and the round step (40_compression.md R100 to R110, 41_scheduler.md R130, R131). -/

namespace Sys2Proof.Proofs

open Sys2Proof.Machine

/-! ### Rotation and shift -/

theorem rotr_toNat (n : Nat) (x : Word) : (rotr n x).toNat = x.toNat / 2 ^ n ||| x.toNat * 2 ^ (32 - n) % 2 ^ 32 := by
  simp [rotr, Nat.shiftRight_eq_div_pow, Nat.shiftLeft_eq]

/-- Rotation is the library's, for the amounts that the rule allows (40_compression.md R100). -/
theorem rotr_eq_rotateRight {n : Nat} (hn : n < 32) (x : Word) : rotr n x = x.rotateRight n := by
  rw [BitVec.rotateRight_def, Nat.mod_eq_of_lt hn, rotr]

theorem rotr_getLsbD {n i : Nat} (hn : n < 32) (hi : i < 32) (x : Word) :
    (rotr n x).getLsbD i = x.getLsbD ((i + n) % 32) := by
  rw [rotr_eq_rotateRight hn, BitVec.getLsbD_rotateRight, Nat.mod_eq_of_lt hn]
  by_cases hlow : i < 32 - n
  · rw [Nat.mod_eq_of_lt (by omega), Nat.add_comm]
    simp [hlow]
  · rw [show (i + n) % 32 = i - (32 - n) by omega]
    simp [hlow, hi]

theorem rotr_zero (n : Nat) : rotr n 0#32 = 0#32 := by simp [rotr]

theorem rotr_allOnes {n : Nat} (hn : n < 32) : rotr n 0xFFFFFFFF#32 = 0xFFFFFFFF#32 := by
  have hbit : ∀ j < 32, (0xFFFFFFFF#32).getLsbD j = true := by decide
  apply BitVec.eq_of_getLsbD_eq
  intro i hi
  rw [rotr_getLsbD hn hi, hbit i hi, hbit _ (Nat.mod_lt _ (by decide))]

theorem shr_toNat (n : Nat) (x : Word) : (shr n x).toNat = x.toNat / 2 ^ n := by
  simp [shr, Nat.shiftRight_eq_div_pow]

/-- A shift fills with zeros from the top (40_compression.md R101). -/
theorem shr_top {n : Nat} (hn : n ≤ 32) (x : Word) : (shr n x).extractLsb' (32 - n) n = 0#n := by
  ext i hi
  simp [shr, show 32 ≤ n + (32 - n + i) by omega]

/-- Settles O33: rotation on numbers is a division beside a product, and on bits the library's rotation. -/
theorem rotationMovesBits : Obligations.RotationMovesBits :=
  ⟨fun n x _ hn => ⟨rotr_toNat n x, fun _ hi => rotr_getLsbD (by omega) hi x⟩,
    fun n _ hn => ⟨rotr_zero n, rotr_allOnes (by omega)⟩, by decide, by decide⟩

/-! ### Choice and majority -/

theorem ch_getLsbD {i : Nat} (hi : i < 32) (x y z : Word) :
    (ch x y z).getLsbD i = if x.getLsbD i = true then y.getLsbD i else z.getLsbD i := by
  simp only [ch, BitVec.getLsbD_xor, BitVec.getLsbD_and, BitVec.getLsbD_not, hi, decide_true, Bool.true_and]
  cases x.getLsbD i <;> simp

theorem maj_getLsbD (i : Nat) (x y z : Word) :
    (maj x y z).getLsbD i = decide (2 ≤ (x.getLsbD i).toNat + (y.getLsbD i).toNat + (z.getLsbD i).toNat) := by
  simp only [maj, BitVec.getLsbD_xor, BitVec.getLsbD_and]
  cases x.getLsbD i <;> cases y.getLsbD i <;> cases z.getLsbD i <;> rfl

theorem ch_allOnes (y z : Word) : ch 0xFFFFFFFF#32 y z = y := by
  have hones : 0xFFFFFFFF#32 = BitVec.allOnes 32 := rfl
  rw [ch, hones, BitVec.allOnes_and, BitVec.not_allOnes, BitVec.zero_and, BitVec.xor_zero]

theorem ch_zero (y z : Word) : ch 0#32 y z = z := by
  rw [ch, BitVec.not_zero, BitVec.zero_and, BitVec.zero_xor, BitVec.allOnes_and]

theorem ch_same (x y : Word) : ch x y y = y := by
  apply BitVec.eq_of_getLsbD_eq
  intro i hi
  rw [ch_getLsbD hi, ite_self]

theorem maj_same (x z : Word) : maj x x z = x := by
  rw [maj, BitVec.and_self, BitVec.xor_assoc, BitVec.xor_self, BitVec.xor_zero]

/-- Settles O34: each bit by its cases; the corner cases follow from the formulas and from the bits. -/
theorem choiceAndMajority : Obligations.ChoiceAndMajority :=
  ⟨fun x y z => ⟨rfl, fun _ hi => ch_getLsbD hi x y z⟩, fun y z => ⟨ch_allOnes y z, ch_zero y z⟩, ch_same,
    by decide, by decide, fun x y z => ⟨rfl, fun i _ => maj_getLsbD i x y z⟩, maj_same, by decide, by decide, by decide⟩

/-! ### The sigma functions -/

theorem bigSigma0_zero : bigSigma0 0#32 = 0#32 := by decide

theorem bigSigma1_zero : bigSigma1 0#32 = 0#32 := by decide

/-- Settles O35: the formulas are the model's; the shifts divide and clear the top; the words are evaluated. -/
theorem sigmaFunctions : Obligations.SigmaFunctions :=
  ⟨fun x => ⟨rfl, rfl, rfl, rfl, shr_toNat 3 x, shr_toNat 10 x, shr_top (by decide) x, shr_top (by decide) x⟩, by decide⟩

/-! ### The round step -/

/-- A round leaves the all-zero working variables where constant and schedule word cancel (40_compression.md R110). -/
theorem roundStep_zero {k w : Word} (h : k + w = 0#32) :
    roundStep k w { a := 0#32, b := 0#32, c := 0#32, d := 0#32, e := 0#32, f := 0#32, g := 0#32, h := 0#32 } =
      { a := 0#32, b := 0#32, c := 0#32, d := 0#32, e := 0#32, f := 0#32, g := 0#32, h := 0#32 } := by
  simp [roundStep, temp1, temp2, bigSigma0_zero, bigSigma1_zero, ch_zero, maj_same, h]

/-- Settles O38: a round reads the values before it, so the assignments are the definition's. -/
theorem roundStepShiftsTheState : Obligations.RoundStepShiftsTheState :=
  ⟨fun _ _ _ _ _ _ _ _ _ _ => rfl, fun _ _ => roundStep_zero, by decide, by decide, by decide⟩

end Sys2Proof.Proofs
end

section
/-! The Message Scheduler: the table's recurrence with its examples, and the ring against the table
(41_scheduler.md R132 to R135). -/

namespace Sys2Proof.Proofs

open Sys2Proof.Machine Sys2Proof.Laws

/-! ### The ring against the table -/

/-- Settles O40: round t leaves W[t], the newest of the 16 words that the ring holds, in the slot it was consumed from. -/
theorem ringYieldsTheSchedule : Obligations.RingYieldsTheSchedule := by
  intro h block t ht
  obtain ⟨-, hslots⟩ := ring_after h block (n := t + 1) (by omega)
  exact hslots t (by omega) (by omega)

/-! ### The recurrence and its examples -/

theorem blockWord_zeros (n j : Nat) : blockWord (zeros n) j = 0#32 := by
  have hbyte (i : Nat) : (zeros n).getD i 0 = 0 := List.getElem?_getD_replicate_default_eq 0 n i
  simp only [blockWord, hbyte]
  decide

/-- Zero words beget zero words: σ0 and σ1 keep zero (41_scheduler.md R133). -/
theorem scheduleWord_zeros (n : Nat) {t : Nat} (ht : t < 64) : scheduleWord (zeros n) t = 0#32 := by
  induction t using Nat.strong_induction_on with
  | _ t ih =>
    rcases Nat.lt_or_ge t 16 with hfirst | hlater
    · rw [scheduleWord_first _ hfirst, blockWord_zeros]
    · rw [scheduleWord_later _ hlater ht, ih (t - 2) (by omega) (by omega), ih (t - 7) (by omega) (by omega),
        ih (t - 15) (by omega) (by omega), ih (t - 16) (by omega) (by omega)]
      decide

/-- The first words that the recurrence makes of an all-0xFF block (41_scheduler.md R133). -/
theorem scheduleWord_ones :
    scheduleWord (List.replicate 64 0xFF#8) 16 = 0x203ffffc#32 ∧
      scheduleWord (List.replicate 64 0xFF#8) 17 = 0x203ffffc#32 := by decide +kernel

/-- The words of the padded block "abc" (41_scheduler.md R133). -/
theorem scheduleWord_abc :
    [0, 14, 15, 16, 17, 18].map (scheduleWord ([0x61#8, 0x62#8, 0x63#8, 0x80#8] ++ zeros 52 ++ bytes64 24#64)) =
      [0x61626380#32, 0x00000000#32, 0x00000018#32, 0x61626380#32, 0x000f0000#32, 0x7da86405#32] := by decide +kernel

/-- Settles O39: the table starts with the block's words and extends by the recurrence; the example words are evaluated. -/
theorem scheduleFollowsTheRecurrence : Obligations.ScheduleFollowsTheRecurrence :=
  ⟨fun block _ ht => scheduleWord_first block ht,
    fun block _ h16 h63 => scheduleWord_later block h16 (Nat.lt_succ_of_le h63),
    fun _ ht => scheduleWord_zeros 64 ht, scheduleWord_ones.1, scheduleWord_ones.2, scheduleWord_abc⟩

end Sys2Proof.Proofs
end

section
/-! What the digest of a message depends on (42_padder.md R150, R152, R154): the bytes absorbed since INIT, neither how UPDATEs
carried them nor what was computed before. -/

namespace Sys2Proof.Proofs

open Sys2Proof.Machine Sys2Proof.Laws

/-! ### FINISH and READ -/

/-- Settles O46: FINISH leaves the hash state of the digest, and READ gives its words out as the digest's bytes. -/
theorem finishLeavesTheDigest : Obligations.FinishLeavesTheDigest := by
  intro v m s hm
  obtain ⟨t, ht, hphase, rfl, hh, -⟩ := exec_finish_absorbed hm
  exact ⟨t, ht, hphase, rfl, hh, fun i hi => ⟨_, exec_read hphase hi, by rw [bytes32_hashWord _ _ hi, hh, digest]⟩⟩

/-! ### UPDATEs as one absorption -/

/-- UPDATEs one after another complete and absorb their bytes, with RDATA cleared. -/
theorem updateAll_absorbs (l : List (BitVec 2 × Word)) {s : State} (hphase : s.phase = .absorb) (hs : s.bufLen.val ≤ 63) :
    ∃ t, updateAll l s = .next t ∧ absorbBytes (updateBytes l) (clearRData s) = .next (clearRData t) := by
  induction l generalizing s with
  | nil => exact ⟨s, rfl, rfl⟩
  | cons x rest ih =>
    obtain ⟨t, ht, hlen, hframe⟩ := absorbBytes_completes (laneBytes x.1 x.2) (s := clearRData s) hs
    have hphase' : t.phase = .absorb := by rw [hframe]; exact hphase
    have hclear : clearRData t = t := by rw [hframe]; rfl
    obtain ⟨u, hu, hbytes⟩ := ih hphase' (by omega)
    refine ⟨u, by rw [updateAll, exec_update hphase, ht, andThen_next, hu], ?_⟩
    rw [updateBytes, List.flatMap_cons, absorbBytes_append, ht, andThen_next, ← updateBytes, ← hclear, hbytes]

/-- Settles O47: both lists absorb the same bytes from the same state. -/
theorem chunkingDoesNotMatter : Obligations.ChunkingDoesNotMatter := by
  intro l l' s hphase hs hbytes
  obtain ⟨t, ht, habs⟩ := updateAll_absorbs l hphase hs
  obtain ⟨t', ht', habs'⟩ := updateAll_absorbs l' hphase hs
  rw [hbytes, habs'] at habs
  exact ⟨t, t', ht, ht', (Host.Outcome.next.inj habs).symm⟩

/-! ### INIT -/

/-- Settles O52: whatever the engine registers that a host can see held before, INIT sets them. -/
theorem initForgetsTheEarlierComputation : Obligations.InitForgetsTheEarlierComputation := by
  intro v s t hv hport hdata hread hin hdraws
  obtain ⟨var, hvar⟩ : ∃ var, variantOf v = some var := by rcases hv with rfl | rfl <;> exact ⟨_, rfl⟩
  rw [exec_init hvar, exec_init hvar]
  exact openDigest_sameView var rfl ⟨hport, hdata, hread, hin, hdraws⟩

end Sys2Proof.Proofs
end

section
/-! The padding of a message: how many blocks it takes and what they spell, and the length field (42_padder.md R142 to R146,
R151). -/

namespace Sys2Proof.Proofs

open Sys2Proof.Machine Sys2Proof.Laws

/-! ### The padding blocks -/

theorem paddingBlocks_length (r : List Byte) (bits : BitVec 64) :
    (paddingBlocks r bits).length = if r.length ≤ 55 then 1 else 2 := by
  split
  case isTrue h => rw [paddingBlocks_one h]; rfl
  case isFalse h => rw [paddingBlocks_two (by omega)]; rfl

theorem zeros_append (m n : Nat) : zeros m ++ zeros n = zeros (m + n) := List.replicate_append_replicate

/-- The one block of edge case B cuts the zeros of P1 off where the length field begins (42_padder.md R145). -/
theorem onlyPadding_spells {r : List Byte} (h : r.length ≤ 55) (bits : BitVec 64) :
    onlyPadding r bits = r ++ [0x80#8] ++ zeros (55 - r.length) ++ bytes64 bits := by
  have hzeros : zeros (63 - r.length) = zeros (55 - r.length) ++ zeros 8 := by rw [zeros_append]; congr 1; omega
  rw [onlyPadding, firstPadding, hzeros, ← List.append_assoc, List.take_left' (by simp; omega)]

/-- The zeros of edge case A run from P1 on into P2 (42_padder.md R143, R144). -/
theorem firstPadding_secondPadding_spell {r : List Byte} (h : r.length ≤ 63) (bits : BitVec 64) :
    firstPadding r ++ secondPadding bits = r ++ [0x80#8] ++ zeros (119 - r.length) ++ bytes64 bits := by
  have hzeros : zeros (119 - r.length) = zeros (63 - r.length) ++ zeros 56 := by rw [zeros_append]; congr 1; omega
  simp only [firstPadding, secondPadding, hzeros, List.append_assoc]

/-- Settles O42: the two edge cases split at a residual of 55 bytes. -/
theorem paddingSpellsTheLength : Obligations.PaddingSpellsTheLength := by
  intro r bits hr
  refine ⟨paddingBlocks_whole hr bits, paddingBlocks_length r bits, ?_⟩
  split
  case isTrue h => rw [paddingBlocks_one h, List.flatten_singleton, onlyPadding_spells h]
  case isFalse h =>
    rw [paddingBlocks_two (by omega), List.flatten_cons, List.flatten_singleton, firstPadding_secondPadding_spell hr]

/-! ### The blocks of a message with its padding -/

theorem length_flatten_whole {blocks : List (List Byte)} (h : ∀ b ∈ blocks, b.length = 64) :
    blocks.flatten.length = 64 * blocks.length := by
  rw [List.length_flatten, List.map_congr_left h, List.map_const', List.sum_replicate, smul_eq_mul, Nat.mul_comm]

theorem messageBlock_length {m : List Byte} {j : Nat} (hj : j < fullBlocks m) : (messageBlock m j).length = 64 := by
  unfold fullBlocks at hj
  rw [messageBlock, List.length_take, List.length_drop]
  omega

theorem messageBlocks_length (m : List Byte) :
    ((List.range (fullBlocks m)).flatMap (messageBlock m)).length = 64 * fullBlocks m := by
  have hwhole : ∀ b ∈ (List.range (fullBlocks m)).map (messageBlock m), b.length = 64 := by
    simp only [List.mem_map, List.mem_range]
    rintro _ ⟨j, hj, rfl⟩
    exact messageBlock_length hj
  rw [List.flatMap_def, length_flatten_whole hwhole, List.length_map, List.length_range]

theorem messagePadding_length (m : List Byte) (bits : BitVec 64) :
    (paddingBlocks (messageResidual m) bits).length = if m.length % 64 ≤ 55 then 1 else 2 := by
  rw [paddingBlocks_length, messageResidual_length]

theorem messagePadding_flatten_length (m : List Byte) (bits : BitVec 64) :
    (paddingBlocks (messageResidual m) bits).flatten.length = 64 * if m.length % 64 ≤ 55 then 1 else 2 := by
  have hr : (messageResidual m).length ≤ 63 := by rw [messageResidual_length]; omega
  rw [length_flatten_whole (paddingBlocks_whole hr bits), messagePadding_length]

/-- Settles O43: whole blocks, of which the residual decides the last one or two. -/
theorem blocksOfAMessage : Obligations.BlocksOfAMessage := by
  refine ⟨fun m bits => ?_, fun m bits => ?_, fun x hx m bits hm => ?_⟩
  · rw [messagePadding_length, fullBlocks]
  · rw [messageBlocks_length, messagePadding_flatten_length, ← Nat.mul_add, fullBlocks]
  · rw [messagePadding_length, fullBlocks, hm]
    clear hm
    revert x
    decide

/-! ### The length field -/

theorem totalBits_toNat (byteCnt : BitVec 64) (l : Nat) :
    (totalBits byteCnt l).toNat = 8 * (byteCnt.toNat + l) % 2 ^ 64 := by
  rw [totalBits, BitVec.toNat_mul, BitVec.toNat_add, BitVec.toNat_ofNat, BitVec.toNat_ofNat]
  omega

/-- Settles O44: BYTECNT and BUFLEN add up to the length modulo 2^64, and 8 times a length below 2^61 does not wrap. -/
theorem lengthFieldCountsBits : Obligations.LengthFieldCountsBits := by
  refine ⟨totalBits_toNat, fun v m s hm habs => ?_⟩
  obtain ⟨-, -, hlen, hcnt, -⟩ := habs
  rw [totalBits_toNat, hlen, hcnt, BitVec.toNat_ofNat]
  omega

end Sys2Proof.Proofs
end

section
/-! The words of the commands, legal and illegal, and STATUS after a command that rejects nothing (30_encoding.md R82, R87;
10_state.md R33). -/

namespace Sys2Proof.Proofs

open Sys2Proof.Machine Sys2Proof.Laws

/-- A command other than UPDATE is read from its word whatever DATA is (30_encoding.md R89). -/
theorem decode_word {i : Instr} (hi : i.wellFormed = true) (hop : opField (encodeCmd i) ≠ 2#4) (data : Word) :
    decode (encodeCmd i) data = .ok i :=
  (decode_ignores_data hop data (encodeData i)).trans (decode_encode hi)

theorem decode_initWord {v : BitVec 2} (hv : v = 0#2 ∨ v = 1#2) (data : Word) :
    decode (0x10000000#32 ||| v.zeroExtend 32) data = .ok (.init v) := by
  rcases hv with rfl | rfl <;> exact decode_word (i := .init _) rfl (by decide) data

theorem decode_readWord (i : BitVec 3) (data : Word) : decode (0x40000000#32 ||| i.zeroExtend 32) data = .ok (.read i) := by
  have hop : ∀ j : BitVec 3, opField (encodeCmd (.read j)) ≠ 2#4 := by decide
  exact decode_word (i := .read i) rfl (hop i) data

/-- Where the reserved bits of an opcode decide legality, a word that violates them records ILLEGAL (43_commands.md R160). -/
theorem runCommand_illegal {cmd data : Word} {legal : Prop} (hlegal : (∃ i, decode cmd data = .ok i) ↔ legal)
    (h : ¬legal) (s : State) : runCommand cmd data s = .next (raiseError .illegal s) := by
  obtain ⟨r, hr⟩ := decode_eq_error fun i hi => h (hlegal.1 ⟨i, hi⟩)
  exact runCommand_error hr s

/-- STATUS with nothing in flight and no error recorded (10_state.md R33). -/
theorem statusWord_clean {s : State} (hflight : s.port.flight = none) (herr : s.err = false) (hcode : s.ecode = .none) :
    statusWord s = (phaseCode s.phase).zeroExtend 32 ||| (variantCode s.var).zeroExtend 32 <<< 2
      ||| BitVec.ofNat 32 s.bufLen.val <<< 8 := by
  simp [statusWord, busy_eq_false hflight, herr, hcode, errorNumber]

end Sys2Proof.Proofs
end

section
/-! The absorption invariant (43_commands.md R165): INIT establishes it, UPDATE extends its message, and every other command
that stays in ABSORB keeps it. -/

namespace Sys2Proof.Proofs

open Sys2Proof.Machine Sys2Proof.Laws

/-- An error touches nothing that the absorbed message is held in (60_exceptions.md R203). -/
theorem absorbed_raiseError {v : Variant} {m : List Byte} {s : State} (h : Absorbed v m s) (c : ErrorCode) :
    Absorbed v m (raiseError c s) := h

/-- The invariant is about the absorbed message alone: a command that neither opens nor extends it nor leaves ABSORB is NOP or
one that is rejected. -/
theorem runCommand_keeps_absorbed {v : Variant} {m : List Byte} {cmd data : Word} {s t : State} (hm : Absorbed v m s)
    (hupdate : ∀ n d, decode cmd data ≠ .ok (.update n d)) (hinit : ∀ x, decode cmd data ≠ .ok (.init x))
    (h : runCommand cmd data s = .next t) (hphase : t.phase = .absorb) : Absorbed v m t := by
  rcases runCommand_cases h with ⟨x, var, hd, -, -⟩ | ⟨-, -, hfin⟩ | ⟨n, d, hd, -, -⟩ | ⟨-, rfl⟩ | ⟨i, -, hdone, -, -⟩ |
    ⟨-, -, c, -, rfl⟩
  · exact absurd hd (hinit x)
  · rw [finalize_frame hfin] at hphase
    cases hphase
  · exact absurd hd (hupdate n d)
  · exact absorbed_clearRData hm
  · obtain ⟨habsorb, -⟩ := hm
    rw [habsorb] at hdone
    cases hdone
  · exact absorbed_raiseError hm c

/-- BYTECNT and BUFLEN add up to the length of the message modulo 2^64 (43_commands.md R165). -/
theorem absorbed_length {v : Variant} {m : List Byte} {s : State} (h : Absorbed v m s) :
    s.byteCnt + BitVec.ofNat 64 s.bufLen.val = BitVec.ofNat 64 m.length := by
  obtain ⟨-, -, hlen, hcnt, -⟩ := h
  rw [hcnt, hlen, ← BitVec.ofNat_add, Nat.div_add_mod]

/-- Settles O45: what INIT, UPDATE and the other commands make of the absorbed message, one lemma each. -/
theorem absorptionInvariant : Obligations.AbsorptionInvariant := by
  refine ⟨fun v var s hvar => ⟨_, exec_init hvar s, absorbed_openDigest var _⟩, fun v m n data s hm => ?_,
    fun _ _ _ _ _ _ => runCommand_keeps_absorbed, fun _ _ _ hm => ⟨absorbed_bufLen_le hm, absorbed_length hm⟩⟩
  obtain ⟨t, ht, hmt, -⟩ := exec_update_absorbed n data hm
  exact ⟨t, ht, hmt⟩

end Sys2Proof.Proofs
end

section
/-! NOP and INIT, and a word that is no command (43_commands.md R160 to R162). -/

namespace Sys2Proof.Proofs

open Sys2Proof.Machine Sys2Proof.Laws

/-- Settles O11: NOP has one word, and STATUS has no field of RDATA. -/
theorem nopOnlyClearsRData : Obligations.NopOnlyClearsRData :=
  ⟨decode_word (i := .nop) rfl (by decide), fun _ _ s hop h => runCommand_illegal (legal_iff_of_plain (.inl hop)) h s,
    fun s => ⟨exec_nop s, rfl⟩⟩

/-- After INIT, STATUS shows ABSORB and the variant alone (43_commands.md R162). -/
theorem statusWord_openDigest (var : Variant) {s : State} (hflight : s.port.flight = none) :
    statusWord (openDigest var s) = 1#32 ||| (variantCode var).zeroExtend 32 <<< 2 := by
  rw [statusWord_clean (s := openDigest var s) hflight rfl rfl, openDigest_phase, openDigest_var, openDigest_bufLen]
  cases var <;> rfl

/-- Settles O12: INIT of either variant loads its row of the IV table; a word with another V or a reserved bit is ILLEGAL. -/
theorem initLoadsTheIvAndOpens : Obligations.InitLoadsTheIvAndOpens := by
  refine ⟨fun v data hv => decode_initWord hv data, exec_init (var := .sha256) rfl, exec_init (var := .sha224) rfl,
    fun v s t hv hflight h => ?_, fun _ _ s hop h => ⟨runCommand_illegal (legal_iff_of_init hop) h s, rfl⟩⟩
  obtain ⟨var, hvar, hcode⟩ : ∃ var, variantOf v = some var ∧ (variantCode var).zeroExtend 32 = v.zeroExtend 32 := by
    rcases hv with rfl | rfl <;> exact ⟨_, rfl, rfl⟩
  rw [exec_init hvar] at h
  cases h
  rw [← hcode]
  exact statusWord_openDigest var (s := clearRData s) hflight

/-- Settles O8: a transaction on a free port is the answer to its command, and that of an illegal word is its error. -/
theorem stepRejectsAnIllegalWord : Obligations.StepRejectsAnIllegalWord := by
  intro s cmd data rest r hin hflight hoffer hwrite hd
  rw [step_cons hin]
  change transact cmd data { s with inputs := rest } = _
  rw [transact_free (s := { s with inputs := rest }) hflight hoffer hwrite, respond, runCommand_error hd, andThen_next]
  simp [raiseError, answeredPort, hoffer, hwrite]

end Sys2Proof.Proofs
end

section
/-! UPDATE in ABSORB (43_commands.md R163, R164): the message bytes it absorbs and the bytes of BUF it stores. -/

namespace Sys2Proof.Proofs

open Sys2Proof.Machine Sys2Proof.Laws

/-! ### The residual and the block that fills -/

/-- Everything UPDATE does in ABSORB (43_commands.md R163). -/
theorem exec_update_cases (n : BitVec 2) (data : Word) {s : State} (hphase : s.phase = .absorb) (hs : s.bufLen.val ≤ 63) :
    ∃ t, exec (.update n data) s = .next t ∧
      (s.bufLen.val + byteCount n < 64 →
        liveResidual t = liveResidual s ++ laneBytes n data ∧ t.bufLen.val = s.bufLen.val + byteCount n ∧
        t.h = s.h ∧ t.byteCnt = s.byteCnt ∧ t.dp = s.dp) ∧
      (64 ≤ s.bufLen.val + byteCount n →
        liveResidual t = (liveResidual s ++ laneBytes n data).drop 64 ∧ t.bufLen.val = s.bufLen.val + byteCount n - 64 ∧
        t.h = compressTable s.h ((liveResidual s ++ laneBytes n data).take 64) ∧ t.byteCnt = s.byteCnt + 64#64) ∧
      AbsorbFrame (clearRData s) t := by
  obtain ⟨-, hle⟩ := byteCount_le n
  rw [exec_update hphase, ← laneBytes_length n data]
  exact absorbBytes_cases (laneBytes n data) (s := clearRData s) hs (by rw [laneBytes_length]; omega)

/-- INIT sha256 and UPDATE 3, 0x61626300: the message "abc" is absorbed, and only the buffer changes after INIT. -/
theorem init_update_abc (s : State) :
    ∃ t, andThen (exec (.init 0#2) s) (exec (.update 2#2 0x61626300#32)) = .next t ∧
      Absorbed .sha256 [0x61#8, 0x62#8, 0x63#8] t ∧ AbsorbFrame (openDigest .sha256 (clearRData s)) t := by
  obtain ⟨t, ht, hm⟩ := absorbBytes_absorbed (laneBytes 2#2 0x61626300#32)
    (absorbed_openDigest .sha256 (clearRData s))
  exact ⟨t, by rw [exec_init rfl, andThen_next, exec_update rfl]; exact ht, hm, absorbBytes_frame ht⟩

/-- Settles O14: `exec_update_cases`, and the message "abc" that is shorter than a block. -/
theorem updateAbsorbsItsLanes : Obligations.UpdateAbsorbsItsLanes := by
  refine ⟨decode_updateWord, fun _ _ s hop h => runCommand_illegal (legal_iff_of_update hop) h s,
    fun n data s h => exec_update_rejected h n data, fun n data s hphase hs => exec_update_cases n data hphase hs,
    fun s hflight => ?_⟩
  obtain ⟨t, ht, ⟨hphase, hvar, hlen, -, hres, -⟩, hframe⟩ := init_update_abc s
  refine ⟨t, ht, hres, ?_⟩
  have hclean : t.port = s.port ∧ t.err = false ∧ t.ecode = .none := by rw [hframe]; exact ⟨rfl, rfl, rfl⟩
  obtain ⟨hport, herr, hcode⟩ := hclean
  rw [statusWord_clean (by rw [hport, hflight]) herr hcode, hphase, hvar, hlen]
  rfl

/-! ### The bytes of BUF -/

/-- A byte is stored at BUF[BUFLEN], also when it fills the block (43_commands.md R164). -/
theorem absorbByte_stores (b : Byte) {s : State} (hs : s.bufLen.val ≤ 63) :
    ∃ t, absorbByte b s = .next t ∧ t.bufLen.val = (s.bufLen.val + 1) % 64 ∧
      t.buf.toList = s.buf.toList.set s.bufLen.val b := by
  have room : s.bufLen.val < 64 := by omega
  by_cases full : s.bufLen.val + 1 = 64
  · exact ⟨_, absorbByte_full b room full, by rw [full]; rfl, Vector.toList_set room⟩
  · exact ⟨_, absorbByte_room b room full, by simp; omega, Vector.toList_set room⟩

/-- Up to a block of bytes is stored from BUF[BUFLEN] on, round the end of BUF, and no other byte (43_commands.md R164; log 7). -/
theorem absorbBytes_stores (l : List Byte) {s : State} (hs : s.bufLen.val ≤ 63) (hl : l.length ≤ 64) :
    ∃ t, absorbBytes l s = .next t ∧
      (∀ k < l.length, t.buf.toList[(s.bufLen.val + k) % 64]? = l[k]?) ∧
      ∀ j, (∀ k < l.length, j ≠ (s.bufLen.val + k) % 64) → t.buf.toList[j]? = s.buf.toList[j]? := by
  induction l generalizing s with
  | nil => exact ⟨s, rfl, nofun, fun _ _ => rfl⟩
  | cons b rest ih =>
    rw [List.length_cons] at hl
    obtain ⟨u, hu, hlen, hbuf⟩ := absorbByte_stores b hs
    obtain ⟨t, ht, hstored, hother⟩ := ih (s := u) (by omega) (by omega)
    have hpos : ∀ k, (u.bufLen.val + k) % 64 = (s.bufLen.val + (k + 1)) % 64 := by omega
    simp only [hpos] at hstored hother
    refine ⟨t, by rw [absorbBytes, hu, andThen_next, ht], fun k hk => ?_, fun j hj => ?_⟩
    · cases k with
      | zero =>
        rw [hother _ fun k hk => by omega, hbuf, show (s.bufLen.val + 0) % 64 = s.bufLen.val by omega,
          List.getElem?_set_self (by simp; omega)]
        rfl
      | succ k => exact hstored k (Nat.lt_of_succ_lt_succ hk)
    · have hne : j ≠ (s.bufLen.val + 0) % 64 := hj 0 (Nat.succ_pos _)
      rw [hother j fun k hk => hj (k + 1) (Nat.succ_lt_succ hk), hbuf, List.getElem?_set_ne (by omega)]

/-- Settles O15: the lanes are the bytes stored. -/
theorem updateStoresOnlyItsBytes : Obligations.UpdateStoresOnlyItsBytes := by
  intro n data s hphase hs
  obtain ⟨-, hle⟩ := byteCount_le n
  have hcount := laneBytes_length n data
  obtain ⟨t, ht, hstored, hother⟩ := absorbBytes_stores (laneBytes n data) (s := clearRData s) hs (by omega)
  rw [hcount] at hstored hother
  exact ⟨t, by rw [exec_update hphase, ht], fun k hk => by rw [← laneBytes_getElem? hk]; exact hstored k hk,
    fun j _ hj => hother j hj⟩

end Sys2Proof.Proofs
end

section
/-! FINISH in ABSORB (43_commands.md R170, 42_padder.md R147). -/

namespace Sys2Proof.Proofs

open Sys2Proof.Machine Sys2Proof.Laws

/-- Finalization compresses the padding blocks of the live residual (42_padder.md R147). -/
theorem finalize_hash {s : State} (hs : s.bufLen.val ≤ 63) :
    ∃ t, finalize s = .next t ∧
      t.h = (paddingBlocks (liveResidual s) (totalBits s.byteCnt s.bufLen.val)).foldl compressTable s.h := by
  obtain ⟨t, ht, hh⟩ := compressAll_hash (paddingBlocks_whole (r := liveResidual s) (by rwa [liveResidual_length])
    (totalBits s.byteCnt s.bufLen.val)) s
  exact ⟨closeDigest t, by rw [finalize, ht, andThen_next], hh⟩

/-- P1 of the live residual (42_padder.md R143). -/
theorem firstPadding_liveResidual (s : State) :
    firstPadding (liveResidual s) = s.buf.toList.take s.bufLen.val ++ [0x80#8] ++ zeros (63 - s.bufLen.val) := by
  rw [firstPadding, liveResidual_length, liveResidual]

/-- Everything FINISH does in ABSORB (43_commands.md R170). -/
theorem exec_finish_cases {s : State} (hphase : s.phase = .absorb) (hs : s.bufLen.val ≤ 63) :
    ∃ t, exec .finish s = .next t ∧
      (56 < s.bufLen.val + 1 →
        t.h = compressTable (compressTable s.h (firstPadding (liveResidual s)))
          (secondPadding (totalBits s.byteCnt s.bufLen.val))) ∧
      (s.bufLen.val + 1 ≤ 56 →
        t.h = compressTable s.h (onlyPadding (liveResidual s) (totalBits s.byteCnt s.bufLen.val))) ∧
      t = { s with h := t.h, dp := t.dp, bufLen := 0, phase := .done, rdata := 0#32 } := by
  have hlen := liveResidual_length s
  obtain ⟨t, ht, hh⟩ := finalize_hash (s := clearRData s) hs
  change t.h = (paddingBlocks (liveResidual s) (totalBits s.byteCnt s.bufLen.val)).foldl compressTable s.h at hh
  refine ⟨t, by rw [exec_finish hphase, ht], fun htwo => ?_, fun hone => ?_, finalize_frame ht⟩
  · rw [hh, paddingBlocks_two (by omega)]
    rfl
  · rw [hh, paddingBlocks_one (by omega)]
    rfl

/-- The hash state of the digest of "abc" (95_test_vectors.md). -/
theorem digestHash_abc : digestHash .sha256 [0x61#8, 0x62#8, 0x63#8] =
    #v[0xba7816bf#32, 0x8f01cfea#32, 0x414140de#32, 0x5dae2223#32,
      0xb00361a3#32, 0x96177a9c#32, 0xb410ff61#32, 0xf20015ad#32] := by decide +kernel

/-- Settles O17: the padding blocks are two or one as BUFLEN decides; the example is the digest of the absorbed message. -/
theorem finishCompressesThePadding : Obligations.FinishCompressesThePadding := by
  refine ⟨decode_word (i := .finish) rfl (by decide),
    fun _ _ s hop h => runCommand_illegal (legal_iff_of_plain (.inr hop)) h s, fun s => exec_finish_rejected,
    fun s hphase hs => ?_, ?_⟩
  · simp only [← firstPadding_liveResidual]
    exact exec_finish_cases hphase hs
  · obtain ⟨t, ht, hm, hframe⟩ := init_update_abc State.reset
    obtain ⟨u, hu, hh⟩ := finalize_absorbed (absorbed_clearRData hm)
    obtain ⟨hphase, -⟩ := hm
    have hu' : exec .finish t = .next u := by rw [exec_finish hphase, hu]
    refine ⟨u, by rw [ht, andThen_next, hu'], by rw [hh, digestHash_abc], ?_⟩
    have hfields : u.port.flight = none ∧ u.err = false ∧ u.ecode = .none ∧ u.phase = .done ∧ u.var = .sha256 ∧
        u.bufLen = 0 := by
      rw [finalize_frame hu, hframe]
      exact ⟨rfl, rfl, rfl, rfl, rfl, rfl⟩
    obtain ⟨hflight, herr, hcode, hphase', hvar, hlen⟩ := hfields
    rw [statusWord_clean hflight herr hcode, hphase', hvar, hlen]
    rfl

end Sys2Proof.Proofs
end

section
/-! READ in DONE (43_commands.md R175, R176), and DONE up to INIT or reset (R171). -/

namespace Sys2Proof.Proofs

open Sys2Proof.Machine Sys2Proof.Laws

/-- Settles O18: the four answers of READ; the word it gives out is four bytes of the serialized digest. -/
theorem readReturnsADigestWord : Obligations.ReadReturnsADigestWord :=
  ⟨decode_readWord, fun _ _ hphase hi => ⟨exec_read hphase hi, bytes32_hashWord _ _ hi, rfl⟩,
    fun _ hphase hvar => exec_read_range hphase ((nw_le_iff _ _).2 ⟨hvar, rfl⟩), fun i _ hphase => exec_read_rejected hphase i,
    fun _ _ s hop h => runCommand_illegal (legal_iff_of_read hop) h s⟩

/-- What READs in DONE may change: RDATA and, where one is rejected, the error record (43_commands.md R176). -/
def ReadFrame (s t : State) : Prop := t = { s with rdata := t.rdata, err := t.err, ecode := t.ecode }

/-- READ in DONE completes, and leaves the error record when the variant emits the word. -/
theorem exec_read_frame (i : BitVec 3) {s : State} (hphase : s.phase = .done) :
    ∃ t, exec (.read i) s = .next t ∧ ReadFrame s t ∧ (i.toNat < nw s.var → t = { s with rdata := t.rdata }) := by
  rcases Nat.lt_or_ge i.toNat (nw s.var) with hi | hi
  · exact ⟨_, exec_read hphase hi, rfl, fun _ => rfl⟩
  · exact ⟨_, exec_read_range hphase hi, rfl, fun hlt => absurd hlt (Nat.not_lt.2 hi)⟩

theorem readAll_frame (l : List (BitVec 3)) {s : State} (hphase : s.phase = .done) :
    ∃ t, readAll l s = .next t ∧ ReadFrame s t ∧ ((∀ i ∈ l, i.toNat < nw s.var) → t = { s with rdata := t.rdata }) := by
  induction l generalizing s with
  | nil => exact ⟨s, rfl, rfl, fun _ => rfl⟩
  | cons i rest ih =>
    obtain ⟨u, hu, hframe, hemitted⟩ := exec_read_frame i hphase
    have hkept : u.phase = .done ∧ u.var = s.var := by rw [hframe]; exact ⟨hphase, rfl⟩
    obtain ⟨t, ht, hframe', hemitted'⟩ := ih hkept.1
    refine ⟨t, by rw [readAll, hu, andThen_next, ht], ?_, fun hl => ?_⟩
    · unfold ReadFrame at *
      rw [hframe', hframe]
    · rw [hemitted' fun j hj => hkept.2 ▸ hl j (List.mem_cons_of_mem i hj), hemitted (hl i List.mem_cons_self)]

/-- Settles O19: READs leave PHASE, VAR and H, so a READ after them gives out the same word. -/
theorem readsAreIdempotent : Obligations.ReadsAreIdempotent := by
  intro l s hphase
  obtain ⟨t, ht, hframe, hemitted⟩ := readAll_frame l hphase
  refine ⟨t, ht, hframe, hemitted, fun i hi => ?_⟩
  have hkept : t.phase = .done ∧ t.var = s.var ∧ t.h = s.h := by rw [hframe]; exact ⟨hphase, rfl, rfl⟩
  obtain ⟨hphase', hvar, hh⟩ := hkept
  rw [exec_read hphase' (by rwa [hvar]), hashWord]
  simp only [hh]

/-- In DONE a command that is no INIT leaves the digest (43_commands.md R171). -/
theorem runCommand_holds_digest {cmd data : Word} {s t : State} (hphase : s.phase = .done)
    (hinit : ∀ v, decode cmd data ≠ .ok (.init v)) (h : runCommand cmd data s = .next t) : t.h = s.h ∧ t.phase = .done := by
  rcases runCommand_cases h with ⟨v, -, hd, -, -⟩ | ⟨-, habsorb, -⟩ | ⟨-, -, -, habsorb, -⟩ | ⟨-, rfl⟩ | ⟨-, -, -, -, rfl⟩ |
    ⟨-, -, c, -, rfl⟩
  · exact absurd hd (hinit v)
  · rw [hphase] at habsorb; cases habsorb
  · rw [hphase] at habsorb; cases habsorb
  · exact ⟨rfl, hphase⟩
  · exact ⟨rfl, hphase⟩
  · exact ⟨rfl, hphase⟩

theorem runCommands_holds_digest {l : List Transaction} (hinit : ∀ x ∈ l, ∀ v, decode x.cmd x.data ≠ .ok (.init v))
    {s t : State} (hphase : s.phase = .done) (h : runCommands l s = .next t) : t.h = s.h ∧ t.phase = .done := by
  induction l generalizing s with
  | nil => cases h; exact ⟨rfl, hphase⟩
  | cons x rest ih =>
    obtain ⟨u, hu, ht⟩ := andThen_eq_next h
    obtain ⟨hh, hphase'⟩ := runCommand_holds_digest hphase (hinit x List.mem_cons_self) hu
    rw [← hh]
    exact ih (fun y hy => hinit y (List.mem_cons_of_mem x hy)) hphase' ht

/-- Settles O26: an event that is no reset acts on H and PHASE by the commands it answers. -/
theorem digestIsHeldUntilInitOrReset : Obligations.DigestIsHeldUntilInitOrReset :=
  fun _ _ s t hphase hreset hinit h => runCommands_holds_digest (t := setAround s t) hinit hphase (handle_runs hreset h)

end Sys2Proof.Proofs
end

section
/-! Which commands are accepted, and what they leave of the error record (43_commands.md R160, R168). -/

namespace Sys2Proof.Proofs

open Sys2Proof.Machine Sys2Proof.Laws

/-- An accepted UPDATE keeps PHASE and the error record. -/
theorem exec_update_accepted (n : BitVec 2) (data : Word) {s : State} (hphase : s.phase = .absorb) (hs : s.bufLen.val ≤ 63) :
    ∃ t, exec (.update n data) s = .next t ∧ t.phase = .absorb ∧ t.err = s.err ∧ t.ecode = s.ecode := by
  obtain ⟨t, ht, -, -, hframe⟩ := exec_update_cases n data hphase hs
  exact ⟨t, ht, by rw [hframe]; exact ⟨hphase, rfl, rfl⟩⟩

/-- An accepted FINISH enters DONE and keeps the error record. -/
theorem exec_finish_accepted {s : State} (hphase : s.phase = .absorb) (hs : s.bufLen.val ≤ 63) :
    ∃ t, exec .finish s = .next t ∧ t.phase = .done ∧ t.err = s.err ∧ t.ecode = s.ecode := by
  obtain ⟨t, ht, -, -, hframe⟩ := exec_finish_cases hphase hs
  exact ⟨t, ht, by rw [hframe]; exact ⟨rfl, rfl, rfl⟩⟩

/-- INIT of a legal variant opens a computation and clears the error record (43_commands.md R162). -/
theorem exec_init_accepted {v : BitVec 2} (hv : v = 0#2 ∨ v = 1#2) (s : State) :
    ∃ t, exec (.init v) s = .next t ∧ t.phase = .absorb ∧ t.err = false ∧ t.ecode = .none := by
  rcases hv with rfl | rfl <;> exact ⟨_, exec_init rfl s, rfl, rfl, rfl⟩

/-- Settles O16: each entry of the phase table is a case of its command. -/
theorem phaseTableDecidesAcceptance : Obligations.PhaseTableDecidesAcceptance := by
  refine ⟨fun n data s h => exec_update_rejected h n data, fun s => exec_finish_rejected, fun i s h => exec_read_rejected h i,
    exec_nop, fun v s hv => ?_, fun n data s => exec_update_accepted n data, fun s => exec_finish_accepted,
    fun i s hphase hi => ⟨_, exec_read hphase hi, hphase, rfl, rfl⟩, fun i s hphase hi => exec_read_range hphase hi⟩
  obtain ⟨t, ht, hphase, herr, -⟩ := exec_init_accepted hv s
  exact ⟨t, ht, hphase, herr⟩

/-- Settles O21: nothing rejects a command exactly where its word is legal and its row of the phase table accepts it. -/
theorem acceptedCommandKeepsTheErrorRecord : Obligations.AcceptedCommandKeepsTheErrorRecord := by
  intro cmd data s hs hnone
  rcases decode_cases cmd data with ⟨-, hd⟩ | ⟨v, hv, -, hd⟩ | ⟨n, -, hd⟩ | ⟨-, hd⟩ | ⟨i, -, hd⟩ | ⟨r, hd⟩ <;>
    simp only [runCommand, rejection, hd] at hnone ⊢
  · exact ⟨_, exec_nop s, by simp⟩
  · obtain ⟨t, ht, -, herr, hcode⟩ := exec_init_accepted hv s
    exact ⟨t, ht, by simp [herr, hcode]⟩
  · obtain ⟨t, ht, -, herr, hcode⟩ := exec_update_accepted n data (s := s) (by simpa using hnone) hs
    exact ⟨t, ht, by simp [herr, hcode]⟩
  · obtain ⟨t, ht, -, herr, hcode⟩ := exec_finish_accepted (s := s) (by simpa using hnone) hs
    exact ⟨t, ht, by simp [herr, hcode]⟩
  · obtain ⟨hphase, hi⟩ : s.phase = .done ∧ i.toNat < nw s.var := by simpa [ite_eq_iff] using hnone
    exact ⟨_, exec_read hphase hi, by simp⟩
  · cases hnone

end Sys2Proof.Proofs
end

section
/-! The error record (60_exceptions.md R203 to R207): what a rejected command leaves, which of two causes is recorded, and what
clears the record; and the engine with no event to take (R212). -/

namespace Sys2Proof.Proofs

open Sys2Proof.Machine Sys2Proof.Laws

/-! ### Rejection -/

/-- A command whose row of the phase table does not accept it records STATE (43_commands.md R168). -/
theorem exec_not_accepted {i : Instr} {s : State} (h : accepts i s.phase = false) :
    exec i s = .next (raiseError .state s) := by
  cases i with
  | nop => cases h
  | init v => cases h
  | update n data => exact exec_update_rejected (by simpa [accepts] using h) n data
  | finish => exact exec_finish_rejected (by simpa [accepts] using h)
  | read i => exact exec_read_rejected (by simpa [accepts] using h) i

theorem accepts_read {i : BitVec 3} {phase : Phase} : accepts (.read i) phase = true ↔ phase = .done := by
  simp [accepts]

/-- Everything that rejects a command, cause by cause (60_exceptions.md R205). -/
theorem rejection_cases {cmd data : Word} {s : State} {c : ErrorCode} (h : rejection cmd data s = some c) :
    (c = .illegal ∧ ∃ r, decode cmd data = .error r) ∨
    (c = .state ∧ ∃ i, decode cmd data = .ok i ∧ accepts i s.phase = false) ∨
    (c = .range ∧ ∃ i, decode cmd data = .ok (.read i) ∧ s.phase = .done ∧ nw s.var ≤ i.toNat) := by
  unfold rejection at h
  split at h
  case h_1 r hd => cases h; exact .inl ⟨rfl, r, hd⟩
  case h_2 n d hd =>
    split at h <;> cases h
    exact .inr (.inl ⟨rfl, _, hd, by simpa [accepts]⟩)
  case h_3 hd =>
    split at h <;> cases h
    exact .inr (.inl ⟨rfl, _, hd, by simpa [accepts]⟩)
  case h_4 i hd =>
    split at h
    next hphase => cases h; exact .inr (.inl ⟨rfl, _, hd, by simpa [accepts] using hphase⟩)
    next hphase =>
      split at h <;> cases h
      exact .inr (.inr ⟨rfl, i, hd, not_not.1 hphase, ‹_›⟩)
  case h_5 => cases h
  case h_6 => cases h

/-- A rejected command raises its error and does nothing else (60_exceptions.md R203). -/
theorem runCommand_rejected {cmd data : Word} {s : State} {c : ErrorCode} (h : rejection cmd data s = some c) :
    runCommand cmd data s = .next (raiseError c s) := by
  rcases rejection_cases h with ⟨rfl, r, hd⟩ | ⟨rfl, i, hd, hacc⟩ | ⟨rfl, i, hd, hphase, hi⟩
  · exact runCommand_error hd s
  · rw [runCommand_ok hd, exec_not_accepted hacc]
  · rw [runCommand_ok hd, exec_read_range hphase hi]

/-- Settles O20: a rejected command is `raiseError`, whose whole effect is written out. -/
theorem rejectionChangesOnlyTheErrorRecord : Obligations.RejectionChangesOnlyTheErrorRecord :=
  fun _ _ _ _ h => runCommand_rejected h

/-- While ERR = 1 an error sets RDATA to 0 and nothing else (60_exceptions.md R207). -/
theorem raiseError_of_err {s : State} (h : s.err = true) (c : ErrorCode) : raiseError c s = clearRData s := by
  simp [raiseError, clearRData, ← h]

/-- Settles O23: the error that a rejected command raises finds ERR = 1. -/
theorem laterErrorsKeepTheFirstCode : Obligations.LaterErrorsKeepTheFirstCode := by
  intro cmd data s c herr h
  rw [runCommand_rejected h, raiseError_of_err herr]
  rfl

/-! ### Priority -/

theorem decode_readSeven (data : Word) : decode 0x40000007#32 data = .ok (.read 7#3) := decode_readWord 7#3 data

/-- READ 7 with bit 3 of CMD set, a reserved bit (30_encoding.md R86, R87). -/
theorem decode_readSeven_bitThree (data : Word) : decode 0x4000000F#32 data = .error .reservedBits := rfl

/-- Settles O22: each cause has its code where no cause before it holds; the words of READ 7 are three instances. -/
theorem errorsHaveAPriority : Obligations.ErrorsHaveAPriority := by
  refine ⟨fun cmd data s hno => ?_, fun cmd data s i hd hacc => ?_, fun cmd data s i hd hacc hi => ?_, fun data s => ?_,
    fun data s hphase => ?_, fun data s hphase hvar => ?_, fun p s hrst hmeaning => clockEdge_reset hmeaning hrst⟩
  · obtain ⟨r, hd⟩ := decode_eq_error hno
    exact runCommand_error hd s
  · rw [runCommand_ok hd, exec_not_accepted hacc]
  · rw [runCommand_ok hd, exec_read_range (accepts_read.1 hacc) hi]
  · exact runCommand_error (decode_readSeven_bitThree data) s
  · rw [runCommand_ok (decode_readSeven data), exec_read_rejected (by simp [hphase])]
  · rw [runCommand_ok (decode_readSeven data), exec_read_range hphase ((nw_le_iff _ _).2 ⟨hvar, rfl⟩)]

/-! ### What clears the record -/

/-- What a command does to the error record of a state with ERR = 1: INIT clears it, and every other command keeps it
(60_exceptions.md R206, R207). -/
theorem runCommand_errorRecord {cmd data : Word} {s t : State} (herr : s.err = true) (h : runCommand cmd data s = .next t) :
    (∃ v var, decode cmd data = .ok (.init v) ∧ variantOf v = some var ∧ t = openDigest var (clearRData s)) ∨
    ((∀ v, decode cmd data ≠ .ok (.init v)) ∧ t.err = true ∧ t.ecode = s.ecode) := by
  rcases runCommand_cases h with hinit | ⟨hd, -, hfin⟩ | ⟨n, d, hd, -, habs⟩ | ⟨hd, rfl⟩ | ⟨i, hd, -, -, rfl⟩ |
    ⟨hd, -, c, -, rfl⟩
  · exact .inl hinit
  · exact .inr ⟨by simp [hd], by rw [finalize_frame hfin]; exact ⟨herr, rfl⟩⟩
  · exact .inr ⟨by simp [hd], by rw [absorbBytes_frame habs]; exact ⟨herr, rfl⟩⟩
  · exact .inr ⟨by simp [hd], herr, rfl⟩
  · exact .inr ⟨by simp [hd], herr, rfl⟩
  · exact .inr ⟨hd, by rw [raiseError_of_err herr]; exact ⟨herr, rfl⟩⟩

/-- Settles O24: a word decodes to INIT only with a legal variant, and only such an INIT clears the record. -/
theorem errorRecordClearsByInitOrReset : Obligations.ErrorRecordClearsByInitOrReset := by
  refine ⟨fun cmd data s t herr h => ?_, fun _ _ => ⟨rfl, rfl⟩⟩
  rcases runCommand_errorRecord herr h with ⟨v, var, hd, hvar, rfl⟩ | ⟨hinit, herr', hcode⟩
  · exact ⟨⟨fun _ => ⟨v, var, hd, hvar⟩, fun _ => rfl⟩, fun _ => ⟨rfl, rfl, rfl, rfl, rfl⟩,
      fun hno => absurd hvar (hno v var hd)⟩
  · have hset : t.err ≠ false := by simp [herr']
    exact ⟨⟨fun hclear => absurd hclear hset, fun ⟨v, _, hd, _⟩ => absurd hd (hinit v)⟩, fun hclear => absurd hclear hset,
      fun _ => ⟨herr', hcode⟩⟩

/-! ### No event -/

/-- Settles O9: with no event in the list, `step_nil` is the whole step. -/
theorem idleEngineHoldsItsState : Obligations.IdleEngineHoldsItsState := fun _ => step_nil

end Sys2Proof.Proofs
end

section
/-! Reset and what it leaves open (70_reset_and_hazards.md R230 to R232), and the hold rule of the handshake (R235). -/

namespace Sys2Proof.Proofs

open Sys2Proof.Machine Sys2Proof.Laws

/-! ### Completion -/

/-- A command keeps the invariant: the engine's part by its effect, the port's part because the port stays as it was. -/
theorem runCommand_keeps_inv {cmd data : Word} {s t : State} (hs : s.Inv) (h : runCommand cmd data s = .next t) : t.Inv := by
  obtain ⟨hengine, hport⟩ := inv_iff.1 hs
  have hstays : t.port = s.port := by rw [runCommand_around h]; rfl
  exact inv_iff.2 ⟨runCommand_keeps_engineInv cmd data s t hengine h, hstays ▸ hport⟩

/-- Settles O29: with BUFLEN below 64 every command completes, and a command keeps the invariant. -/
theorem everyAcceptedCommandCompletes : Obligations.EveryAcceptedCommandCompletes := by
  intro cmd data s hs
  obtain ⟨hengine, -⟩ := inv_iff.1 hs
  obtain ⟨t, ht⟩ := runCommand_completes cmd data hengine.bufLen_le
  exact ⟨t, ht, runCommand_keeps_inv hs ht⟩

/-! ### The state after reset -/

/-- Settles O27: each clause is a closed fact about the values of `State.reset`. -/
theorem resetMeetsTheInvariant : Obligations.ResetMeetsTheInvariant := by
  unfold Obligations.ResetMeetsTheInvariant
  decide

/-- STATUS after reset (70_reset_and_hazards.md R232). -/
theorem statusWord_reset : statusWord State.reset = 0#32 := by decide

/-- In IDLE with BUFLEN = 0 the view shows none of the registers that reset leaves open (70_reset_and_hazards.md R232). -/
theorem reset_sameView (h : HashState) (buf : Vector Byte 64) (byteCnt : BitVec 64) (dp : Datapath)
    (events : List HostEvent) :
    SameView { State.reset with inputs := events }
      { State.reset with h := h, buf := buf, byteCnt := byteCnt, dp := dp, inputs := events } :=
  sameView_iff.2 ⟨⟨rfl, rfl, rfl, rfl, rfl, rfl, nofun, nofun⟩, ⟨rfl, rfl, rfl, rfl, rfl⟩⟩

/-- Two runs from states with the same view have the same answer: the view is kept step by step. -/
theorem run_sameAnswer (n : Nat) {s t : State} (h : SameView s t) :
    SameAnswer (Host.Core.run Sys2Proof.core n s) (Host.Core.run Sys2Proof.core n t) := by
  induction n generalizing s t with
  | zero => exact h
  | succ n ih =>
    rw [run_step, run_step]
    exact sameAnswer_andThen (step_sameAnswer h) fun _ _ => ih

/-- Settles O51: the two states after reset have the same view, which every run keeps. -/
theorem resetLeftoversAreUnobservable : Obligations.ResetLeftoversAreUnobservable :=
  ⟨statusWord_reset, rfl, fun h buf byteCnt dp events n => run_sameAnswer n (reset_sameView h buf byteCnt dp events)⟩

/-! ### A reset edge -/

/-- The state after a reset edge depends on the state before it only by the CMD write on the bus, the host's events and the count of
latencies (70_reset_and_hazards.md R231; logs 3, 14). -/
theorem resetEngine_congr (p : Pins) {s s' : State} (hinputs : s'.inputs = s.inputs) (hdraws : s'.draws = s.draws)
    (hwrite : s'.port.write = s.port.write) : resetEngine p s' = resetEngine p s := by
  rw [resetEngine, resetEngine, hinputs, hdraws, hwrite]

/-- Settles O32: the state after a reset edge is `resetEngine`, and the next edge with rst = 0 finds the port neither ready nor busy,
so it only makes it ready. -/
theorem resetEdgeClearsTheEngine : Obligations.ResetEdgeClearsTheEngine := by
  intro p s hrst hno
  refine ⟨resetEngine p s, clockEdge_reset hno hrst, rfl, rfl, rfl, rfl, rfl, rfl, rfl, rfl, rfl, rfl, rfl, rfl,
    fun s' hinputs hdraws hwrite hno' => ⟨_, clockEdge_reset hno' hrst, ?_⟩,
    fun q hrstq hnoq => ⟨_, clockEdge_idle hnoq hrstq rfl, ?_⟩⟩
  · rw [resetEngine_congr p hinputs hdraws hwrite]
    exact sameView_refl _
  · rw [idleEdge_waits (by simp)]
    exact ⟨rfl, rfl, rfl, rfl⟩

/-! ### The hold rule -/

theorem offerOf_eq_some {p : Pins} {x : Transaction} :
    offerOf p = some x ↔ p.cmdValid = true ∧ p.cmd = x.cmd ∧ p.data = x.data := by
  cases x
  simp [offerOf]

theorem offerOf_eq_none {p : Pins} : offerOf p = none ↔ p.cmdValid = false := by simp [offerOf]

/-- An edge that no longer presents the held command is refused, with rst = 1 too (70_reset_and_hazards.md R235; log 10). -/
theorem clockEdge_breaksHold {p : Pins} {s : State} {x : Transaction} (hoffer : s.port.offer = some x)
    (h : offerOf p ≠ some x) : clockEdge p s = .refused .handshakeHold :=
  clockEdge_refused (by simp [edgeRefusal, breaksHold, hoffer, h])

/-- An edge with rst = 0 and a command in flight holds what is presented, whether it answers that command or counts. -/
theorem flightEdge_offer {f : Flight} {o : Option Transaction} {s t : State} (h : flightEdge f o s = .next t) :
    t.port.offer = o := by
  by_cases hwait : f.wait = 0
  · rw [flightEdge_answers hwait] at h
    rw [(respond_eq_next h).2]
    rfl
  · rw [flightEdge_counts hwait] at h
    cases h
    rfl

/-- An idle edge holds nothing once it accepts, be it the pins' command or that of a CMD write, and what is presented otherwise. -/
theorem idleEdge_offer (p : Pins) (s : State) :
    (idleEdge p s).port.offer = if presented p s ≠ none ∧ s.port.ready = true then none else offerOf p := by
  split
  next h =>
    obtain ⟨x, hx⟩ := Option.ne_none_iff_exists'.1 h.1
    rw [idleEdge_accepts hx h.2]
    rfl
  next h => rw [idleEdge_waits h]

/-- While the pins have a command to present, an edge that has a meaning finds no CMD write waiting, so it presents theirs. -/
theorem presented_of_cmdValid {p : Pins} {s : State} (hno : edgeRefusal p s = none) (hvalid : p.cmdValid = true) :
    presented p s ≠ none := by
  rw [presented_pins ((edgeRefusal_eq_none.1 hno).2 hvalid), Ne, offerOf_eq_none, hvalid]
  decide

/-- What an edge that answers leaves held: nothing when it accepts what the pins present, and what they present otherwise. -/
theorem clockEdge_offer {p : Pins} {s t : State} (h : clockEdge p s = .next t) :
    t.port.offer =
      if p.rst = false ∧ s.port.flight = none ∧ p.cmdValid = true ∧ s.port.ready = true then none else offerOf p := by
  obtain ⟨hno, ⟨hrst, rfl⟩ | ⟨-, f, hf, ht⟩ | ⟨hrst, hf, rfl⟩⟩ := clockEdge_cases h
  · rw [if_neg (by simp [hrst])]
    rfl
  · rw [if_neg (by simp [hf])]
    exact flightEdge_offer ht
  · rw [idleEdge_offer]
    cases hvalid : p.cmdValid with
    | true => simp [hrst, hf, presented_of_cmdValid hno hvalid]
    | false => simp [offerOf_eq_none.2 hvalid]

/-- Settles O55: an edge is refused where the pins drop or change what is held, and any other holds what `clockEdge_offer` says. -/
theorem changedOfferIsRefused : Obligations.ChangedOfferIsRefused := by
  refine ⟨fun p s x hoffer hchanged => clockEdge_breaksHold hoffer fun hsame => ?_, fun p s t h => ?_⟩
  · obtain ⟨hvalid, hcmd, hdata⟩ := offerOf_eq_some.1 hsame
    rcases hchanged with hdropped | hother | hother
    · rw [hvalid] at hdropped; cases hdropped
    · exact hother hcmd
    · exact hother hdata
  · rw [clockEdge_offer h]
    exact ⟨fun haccepted => if_pos haccepted, fun hheld => if_neg hheld⟩

end Sys2Proof.Proofs
end
